-- ==== Sys2Proof/Word.lean ====
section
/-! DEFINITION. The two word types of CORE and the reduction of an integer to a word (00_scope.md R5, R6). -/

namespace Sys2Proof

/-- A general register's or a data cell's value, and the program counter: `XLEN` = 64 bits (R5, R11, R14, R31). -/
abbrev Word := BitVec 64

/-- A 32-bit instruction word, the input of the decoder (30_encoding.md R62). -/
abbrev InstrWord := BitVec 32

/-- A character string: an instruction's assembly text, a trace block's text (R50, R178). -/
abbrev Text := List Char

/-- `wrap64(n)`: the 64-bit vector `v` with `u(v) = n mod 2^64` (R6). -/
abbrev wrap64 (n : Int) : Word := BitVec.ofInt 64 n

end Sys2Proof
end

