-- ==== Sys2Proof/Config.lean ====
section
/-! DEFINITION. The implementation parameters of 00_scope.md R5: the ones a model takes as arguments (`Config`) and the
numbers the spec fixes. The default values are the spec's (log 4); no parameter is built into a meaning. -/

namespace Sys2Proof

/-- The parameters that are fixed for a run and left open by the spec (R5, R25). The third open parameter, `DECODE`, is a
function and so stands outside the state: Sys2Proof/Decode.lean holds its default. -/
structure Config where
  /-- `ENTRY_PC`, the address of the first instruction record (R5, R39). -/
  entryPc : Nat
  /-- `R31_IS_ZERO`, whether register 31 is hardwired to zero (R5, R13). -/
  r31IsZero : Bool
  deriving DecidableEq, Repr

namespace Config

/-- The defaults of R5: `ENTRY_PC` = 96, `R31_IS_ZERO` = false (log 4). -/
def default : Config := { entryPc := 96, r31IsZero := false }

/-- `NREG`: register indices are 0 to 31 (R5, R11). -/
abbrev nreg : Nat := 32

/-- `SHAMT_MAX`: the largest legal shift amount (R5). -/
abbrev shamtMax : Nat := 63

/-- `IMM_BITS`: width of the I-format signed immediate (R5). -/
abbrev immBits : Nat := 12

/-- `DOFF_BITS`: width of the D-format signed word offset (R5). -/
abbrev doffBits : Nat := 9

/-- `BOFF_BITS`: width of the B-format signed word offset (R5). -/
abbrev boffBits : Nat := 26

/-- `CBOFF_BITS`: width of the CB-format signed word offset (R5). -/
abbrev cboffBits : Nat := 19

end Config

end Sys2Proof
end

