-- ==== Sys2Proof/Syntax.lean ====
section
/-! DEFINITION. The nineteen instructions of CORE as syntax (00_scope.md R2; 30_encoding.md R51 to R57, R60).

Register indices, `imm16` and `shift` are naturals; `imm`, `offset` and `shamt` are integers (R6, D12), so that a record
whose field is out of its domain can be written down and raises MalformedOperand (log 11). -/

namespace Sys2Proof

/-- One constructor per row of spec/opcode_table.json, its arguments the operand fields of the record (R51 to R57). -/
inductive Instr where
  /-- AND, R format (R51, R101): `shamt` is carried and ignored. -/
  | and (rd rn rm : Nat) (shamt : Int)
  /-- ADD, R format (R51, R102). -/
  | add (rd rn rm : Nat) (shamt : Int)
  /-- ORR, R format (R51, R103). -/
  | orr (rd rn rm : Nat) (shamt : Int)
  /-- EOR, R format (R51, R104). -/
  | eor (rd rn rm : Nat) (shamt : Int)
  /-- SUB, R format (R51, R105). -/
  | sub (rd rn rm : Nat) (shamt : Int)
  /-- ASR, R format (R51, R106): `rm` is carried and ignored. -/
  | asr (rd rn rm : Nat) (shamt : Int)
  /-- LSR, R format (R51, R107). -/
  | lsr (rd rn rm : Nat) (shamt : Int)
  /-- LSL, R format (R51, R108). -/
  | lsl (rd rn rm : Nat) (shamt : Int)
  /-- ADDI, I format (R52, R121). -/
  | addi (rd rn : Nat) (imm : Int)
  /-- SUBI, I format (R52, R122). -/
  | subi (rd rn : Nat) (imm : Int)
  /-- LDUR, D format (R53, R131): `rt` the transfer register, `rn` the base, `offset` in words. -/
  | ldur (rt rn : Nat) (offset : Int)
  /-- STUR, D format (R53, R132). -/
  | stur (rt rn : Nat) (offset : Int)
  /-- B, B format (R54, R141): `offset` in instructions. -/
  | b (offset : Int)
  /-- CBZ, CB format (R55, R142). -/
  | cbz (rt : Nat) (offset : Int)
  /-- CBNZ, CB format (R55, R143). -/
  | cbnz (rt : Nat) (offset : Int)
  /-- MOVZ, IM format (R56, R151): `shift` is the chunk index. -/
  | movz (rd imm16 shift : Nat)
  /-- MOVK, IM format (R56, R152). -/
  | movk (rd imm16 shift : Nat)
  /-- NOP (R57, R160). -/
  | nop
  /-- BREAK (R57, R161). -/
  | brk
  deriving DecidableEq, Repr

end Sys2Proof
end

