-- ==== Sys2Proof/Machine/Record.lean ====
section
/-! DEFINITION. Instruction records, what CORE fetches and executes (30_encoding.md R50, R59), and the format tags (R2, R60). -/

namespace Sys2Proof

/-- The eight format tags (R50). -/
inductive Format where
  | r | i | d | b | cb | im | nop | brk
  deriving DecidableEq, Repr

/-- The format of an instruction (R60). -/
def Instr.format : Instr → Format
  | .and _ _ _ _ => .r
  | .add _ _ _ _ => .r
  | .orr _ _ _ _ => .r
  | .eor _ _ _ _ => .r
  | .sub _ _ _ _ => .r
  | .asr _ _ _ _ => .r
  | .lsr _ _ _ _ => .r
  | .lsl _ _ _ _ => .r
  | .addi _ _ _ => .i
  | .subi _ _ _ => .i
  | .ldur _ _ _ => .d
  | .stur _ _ _ => .d
  | .b _ => .b
  | .cbz _ _ => .cb
  | .cbnz _ _ => .cb
  | .movz _ _ _ => .im
  | .movk _ _ _ => .im
  | .nop => .nop
  | .brk => .brk

/-- What a record says is to be executed: one of the nineteen instructions, or the one extra shape `Unsupported(w)` that the
decoder gives for a word `w` that matches no pattern (R59, D26; log 10). -/
inductive Shape where
  | instr (i : Instr)
  | unsupported (w : InstrWord)
  deriving DecidableEq, Repr

/-- An instruction record (R50): its own address, its assembly text, which the engine copies and never parses (R72), and its
format, operation and operand fields. -/
structure Record where
  addr : Nat
  text : Text
  shape : Shape
  deriving DecidableEq, Repr

end Sys2Proof
end

