-- ==== Sys2Proof/Machine/State.lean ====
section
/-! DEFINITION. The state of CORE as plain data (10_state.md R10), the reasons a step can stop, and the state after reset
(R24, R220). Parameters and the InstructionStore, which the spec calls configuration fixed at load, are fields too (log 1). -/

namespace Sys2Proof.Machine

/-- The engine's run state (R18). -/
inductive RunState where
  | running
  | halted
  | faulted
  deriving DecidableEq, Repr

/-- The four fatal conditions (60_exceptions.md R196). -/
inductive Cause where
  | instructionFetchOutOfRange
  | unsupportedInstruction
  | malformedOperand
  | misalignedDataAddress
  deriving DecidableEq, Repr

/-- The `info` of a fault record, by cause (R196). -/
inductive FaultInfo where
  /-- An instruction-space address: `u(pc)` for a failed fetch, `I.addr` for a malformed record. -/
  | address (a : Nat)
  /-- `I.addr` and the word an unsupported record came from. -/
  | unsupported (addr : Nat) (word : InstrWord)
  /-- The 64-bit effective address of a misaligned access. -/
  | effectiveAddress (ea : Word)
  deriving DecidableEq, Repr

/-- The fault record `(cause, pc, info)` (R19). -/
structure FaultRecord where
  cause : Cause
  pc : Word
  info : FaultInfo
  deriving DecidableEq, Repr

/-- DataMemory: the list of its entries, (signed word-aligned address, 64-bit cell), addresses strictly rising
(R21, 20_memory.md R31, R32; log 2). -/
abbrev Memory := List (Int × Word)

/-- The InstructionStore: the list of its entries, (byte address, record) (R22, 20_memory.md R38, R39). -/
abbrev Store := List (Nat × Record)

/-- One row of the trace's memory dump: a label address and eight values (47_trace_recorder.md R175). -/
structure MemRow where
  label : Nat
  values : Vector Word 8
  deriving DecidableEq, Repr

/-- A trace block as data, the snapshot tuple `(c, addr, text, regs, rows)` (47_trace_recorder.md R172; log 9). -/
structure Snapshot where
  cycle : Nat
  addr : Nat
  text : Text
  regs : Vector Word 32
  rows : List MemRow
  deriving DecidableEq, Repr

/-- The complete state (R10), with the configuration of the run beside it (R22, R25; log 1). -/
structure State where
  /-- `x[0..31]`, the general registers (R11). -/
  x : Vector Word 32
  /-- `pc`, the program counter (R14). -/
  pc : Word
  /-- `mem`, the DataMemory (R21). -/
  mem : Memory
  /-- `mem_hi`, the highest address ever written (R20). -/
  memHi : Option Int
  /-- `cycle`, the number of instructions executed (R17). -/
  cycle : Nat
  /-- `run`, the run state (R18). -/
  run : RunState
  /-- `fault`, the fault record (R19). -/
  fault : Option FaultRecord
  /-- `trace`, the blocks emitted so far, oldest first (R10; 47_trace_recorder.md R183). -/
  trace : List Snapshot
  /-- `istore`, the InstructionStore; no step changes it (R22). -/
  istore : Store
  /-- The open parameters; no step changes them (R25). -/
  cfg : Config
  deriving DecidableEq, Repr

/-- Why no step exists (R18, R81, 93 U25). Raised by `step` alone. Safe: the spec gives no step in either state. -/
inductive Fault where
  /-- `run = halted`: the program ended with a BREAK (R162). Raised by `step`; safe. -/
  | halted
  /-- `run = faulted`: a fatal condition ended the run (R195). Raised by `step`; safe. -/
  | faulted
  deriving DecidableEq, Repr

/-- Why the model gives an instruction no meaning. -/
inductive Refusal where
  /-- The instruction has no meaning yet; `exec`'s arms alone may answer it, and none does. Safe. -/
  | notModelled (mnemonic : String)
  deriving DecidableEq, Repr

/-- What executing an instruction, or a step, answers. -/
abbrev Result := Host.Outcome State Fault Refusal

/-- Reset under the parameters `cfg`, before the load (R24, R220). -/
def State.resetWith (cfg : Config) : State where
  x := Vector.replicate 32 0
  pc := wrap64 cfg.entryPc
  mem := []
  memHi := none
  cycle := 0
  run := .running
  fault := none
  trace := []
  istore := []
  cfg := cfg

/-- The machine right after reset under the default parameters (R5, R24, R220; log 4, log 5). -/
def State.reset : State := State.resetWith Config.default

end Sys2Proof.Machine
end

