-- ==== Sys2Proof/WellFormed.lean ====
section
/-! DEFINITION. Which operand fields are in their domain (30_encoding.md R58). Every field of the format is checked, whether
or not the operation uses it (R58, C15). The record's own `addr` is checked by the engine (Machine/Engine.lean). -/

namespace Sys2Proof

/-- A register index is in 0..31 (R58). -/
def regOk (i : Nat) : Bool := decide (i < Config.nreg)

/-- A shift amount is in 0..63 (R51, R58). -/
def shamtOk (k : Int) : Bool := decide (0 ≤ k) && decide (k ≤ Config.shamtMax)

/-- A signed field of `bits` bits holds `-2^(bits-1) .. 2^(bits-1) - 1` (R52 to R55). -/
def signedOk (bits : Nat) (v : Int) : Bool :=
  decide (-(2 ^ (bits - 1) : Int) ≤ v) && decide (v < (2 ^ (bits - 1) : Int))

/-- `imm16` is in 0..65535 (R56). -/
def imm16Ok (v : Nat) : Bool := decide (v < 65536)

/-- The chunk index is in 0..3 (R56). -/
def chunkOk (k : Nat) : Bool := decide (k < 4)

/-- The operand fields of an R record (R51). -/
def rOperandsOk (rd rn rm : Nat) (shamt : Int) : Bool :=
  regOk rd && regOk rn && regOk rm && shamtOk shamt

/-- The operand fields of an I record (R52). -/
def iOperandsOk (rd rn : Nat) (imm : Int) : Bool :=
  regOk rd && regOk rn && signedOk Config.immBits imm

/-- The operand fields of a D record (R53). -/
def dOperandsOk (rt rn : Nat) (offset : Int) : Bool :=
  regOk rt && regOk rn && signedOk Config.doffBits offset

/-- The operand fields of a CB record (R55). -/
def cbOperandsOk (rt : Nat) (offset : Int) : Bool :=
  regOk rt && signedOk Config.cboffBits offset

/-- The operand fields of an IM record (R56). -/
def imOperandsOk (rd imm16 shift : Nat) : Bool :=
  regOk rd && imm16Ok imm16 && chunkOk shift

/-- Every operand field of the instruction's format is in its domain (R58). -/
def Instr.wellFormed : Instr → Bool
  | .and rd rn rm shamt => rOperandsOk rd rn rm shamt
  | .add rd rn rm shamt => rOperandsOk rd rn rm shamt
  | .orr rd rn rm shamt => rOperandsOk rd rn rm shamt
  | .eor rd rn rm shamt => rOperandsOk rd rn rm shamt
  | .sub rd rn rm shamt => rOperandsOk rd rn rm shamt
  | .asr rd rn rm shamt => rOperandsOk rd rn rm shamt
  | .lsr rd rn rm shamt => rOperandsOk rd rn rm shamt
  | .lsl rd rn rm shamt => rOperandsOk rd rn rm shamt
  | .addi rd rn imm => iOperandsOk rd rn imm
  | .subi rd rn imm => iOperandsOk rd rn imm
  | .ldur rt rn offset => dOperandsOk rt rn offset
  | .stur rt rn offset => dOperandsOk rt rn offset
  | .b offset => signedOk Config.boffBits offset
  | .cbz rt offset => cbOperandsOk rt offset
  | .cbnz rt offset => cbOperandsOk rt offset
  | .movz rd imm16 shift => imOperandsOk rd imm16 shift
  | .movk rd imm16 shift => imOperandsOk rd imm16 shift
  | .nop => true
  | .brk => true

/-- The proposition behind `Instr.wellFormed` (R58). -/
abbrev Instr.WellFormed (i : Instr) : Prop := i.wellFormed = true

end Sys2Proof
end

