-- ==== Sys2Proof/Machine/Ops.lean ====
section
/-! DEFINITION. The named operations over memory, the InstructionStore, registers, the program counter and the run state
(00_scope.md R7), among them raising a fatal condition, the one shared operation of 60_exceptions.md R195. -/

namespace Sys2Proof.Machine

/-- A data address is word-aligned: a multiple of 4 (R9, R35). -/
def aligned (ea : Word) : Bool := ea.toNat % 4 == 0

/-! ### DataMemory (20_memory.md R31 to R36) -/

/-- The canonical form: addresses strictly rising, each a multiple of 4 in the signed 64-bit range (R31, R32; log 2). -/
abbrev Memory.wf (m : Memory) : Prop :=
  m.Pairwise (fun c d => c.1 < d.1) ∧
    ∀ c ∈ m, c.1 % 4 = 0 ∧ -9223372036854775808 ≤ c.1 ∧ c.1 ≤ 9223372036854775807

/-- The entry at an address, if there is one (R21). -/
def Memory.entry : Memory → Int → Option Word
  | [], _ => none
  | (k, v) :: m, a => if k = a then some v else Memory.entry m a

/-- What an address that has no entry reads as: `wrap64(0)` (R33). -/
def Memory.absent : Word := 0

/-- `MemRead`: the entry's value, or zero; a read changes nothing (R33). -/
def Memory.read (m : Memory) (a : Int) : Word := (Memory.entry m a).getD Memory.absent

/-- `MemWrite` on the map: creates or overwrites the entry at `a`, a zero as well (R34). -/
def Memory.write : Memory → Int → Word → Memory
  | [], a, v => [(a, v)]
  | (k, w) :: m, a, v =>
    if a < k then (a, v) :: (k, w) :: m
    else if a = k then (a, v) :: m
    else (k, w) :: Memory.write m a v

/-- `mem_hi` after a write at `a` (R34). -/
def raiseHi (hi : Option Int) (a : Int) : Option Int :=
  match hi with
  | none => some a
  | some h => if h < a then some a else some h

/-- The largest address of a memory, or none when it is empty (R20, R221). -/
def Memory.highest (m : Memory) : Option Int := m.foldr (fun c hi => raiseHi hi c.1) none

/-! ### InstructionStore (20_memory.md R38, R39) -/

/-- `IFetch(a)`: the record stored at `a`, or none for `NotFound` (R38). -/
def Store.lookup : Store → Nat → Option Record
  | [], _ => none
  | (k, r) :: st, a => if k = a then some r else Store.lookup st a

/-- A store with the record `r` at `a`, used by the load only (R221). -/
def Store.insert : Store → Nat → Record → Store
  | [], a, r => [(a, r)]
  | (k, q) :: st, a, r =>
    if a < k then (a, r) :: (k, q) :: st
    else if a = k then (a, r) :: st
    else (k, q) :: Store.insert st a r

namespace State

/-- `NINSTR`, the number of records in the InstructionStore (R5). -/
def ninstr (s : State) : Nat := s.istore.length

/-- `DATA_BASE = ENTRY_PC + 4 * NINSTR` (R41). -/
def dataBase (s : State) : Nat := s.cfg.entryPc + 4 * s.ninstr

/-- Fetch at a byte address (R38). -/
def ifetch (s : State) (a : Nat) : Option Record := Store.lookup s.istore a

/-! ### Registers (10_state.md R12, R13) -/

/-- Register `i` is the hardwired zero register (R13). -/
def isZeroReg (s : State) (i : Nat) : Bool := s.cfg.r31IsZero && i == 31

/-- `x[i]`, a register read (R7, R12, R13). An index above 31 never arrives here: every meaning checks its operands first
(`checked`; log 12). -/
def readReg (s : State) (i : Nat) : Word :=
  if s.isZeroReg i then 0 else (s.x[i]?).getD 0

/-- `x[i] <- v`, a register write; a write to a hardwired zero register is discarded (R7, R12, R13; log 12). -/
def writeReg (s : State) (i : Nat) (v : Word) : State :=
  if s.isZeroReg i then s else { s with x := s.x.setIfInBounds i v }

/-- The 32 values `x[0] .. x[31]` as reads give them (R172). -/
def regs (s : State) : Vector Word 32 :=
  if s.cfg.r31IsZero then s.x.setIfInBounds 31 0 else s.x

/-! ### Data memory of a state (20_memory.md R33, R34) -/

/-- `MemRead(ea, CELL)`: the address is the signed value of `ea` (R32, R33). -/
def memRead (s : State) (ea : Word) : Word := Memory.read s.mem ea.toInt

/-- `MemWrite(ea, CELL, v)`, which also updates `mem_hi` (R32, R34). -/
def memWrite (s : State) (ea : Word) (v : Word) : State :=
  { s with mem := Memory.write s.mem ea.toInt v, memHi := raiseHi s.memHi ea.toInt }

/-! ### Program counter (10_state.md R15, 40_engine_step.md R84) -/

/-- `pc <- pc + 4` (R84). -/
def advance (s : State) : State := { s with pc := s.pc + 4 }

/-- `pc <- pc + wrap64(4 * offset)`, a taken branch (R140). -/
def branch (s : State) (offset : Int) : State := { s with pc := s.pc + wrap64 (4 * offset) }

/-! ### Run state and fatal conditions -/

/-- `halt` (46_nop_break.md R162). -/
def halt (s : State) : State := { s with run := .halted }

/-- `raise <cause>(info)`: nothing is written but the fault record and the run state; `pc` still holds the address of the
offending instruction (60_exceptions.md R195, R196). There is no return from it (R200). -/
def raise (s : State) (cause : Cause) (info : FaultInfo) : State :=
  { s with run := .faulted, fault := some { cause := cause, pc := s.pc, info := info } }

/-- The check of the operand fields before any state is written: MalformedOperand when one is outside its domain (R58, R83,
R193). The record's `addr` equals `u(pc)` here, since the engine has checked it (log 8). -/
def checked (s : State) (i : Instr) (go : Result) : Result :=
  if i.wellFormed then go else .next (s.raise .malformedOperand (.address s.pc.toNat))

/-- The alignment check of an effective address before memory or a register is written (R35, R194). -/
def alignedAccess (s : State) (ea : Word) (go : Result) : Result :=
  if aligned ea then go else .next (s.raise .misalignedDataAddress (.effectiveAddress ea))

end State

/-- The cause codes (R196). -/
def Cause.code : Cause → Nat
  | .instructionFetchOutOfRange => 1
  | .unsupportedInstruction => 2
  | .malformedOperand => 3
  | .misalignedDataAddress => 4

end Sys2Proof.Machine
end

