-- ==== Sys2Proof/Machine/Flags.lean ====
section
/-! DEFINITION. CORE has no flags, no condition codes and no predicate registers (10_state.md R16): there is no flag
computation. The two branch conditions test a general register's current value directly; they stand here. -/

namespace Sys2Proof.Machine

/-- CBZ is taken iff all 64 bits of the tested register are zero (44_b_cb_format.md R142). -/
def State.cbzTaken (s : State) (rt : Nat) : Bool := (s.readReg rt).toNat == 0

/-- CBNZ is taken iff some bit of the tested register is not zero (R143). -/
def State.cbnzTaken (s : State) (rt : Nat) : Bool := (s.readReg rt).toNat != 0

end Sys2Proof.Machine
end

