-- ==== Sys2Proof/Machine/BFormat.lean ====
section
/-! DEFINITION. The B-format and CB-format instructions, the whole of control transfer (44_b_cb_format.md). A target is not
checked when the branch executes; a bad one is found at the next fetch (R140). -/

namespace Sys2Proof.Machine

/-- B: `pc <- a + wrap64(4 * offset)` (R141). -/
def execB (offset : Int) (s : State) : Result :=
  s.checked (.b offset) (.next (s.branch offset))

/-- CBZ (R142). -/
def execCbz (rt : Nat) (offset : Int) (s : State) : Result :=
  s.checked (.cbz rt offset) (.next (if s.cbzTaken rt then s.branch offset else s.advance))

/-- CBNZ (R143). -/
def execCbnz (rt : Nat) (offset : Int) (s : State) : Result :=
  s.checked (.cbnz rt offset) (.next (if s.cbnzTaken rt then s.branch offset else s.advance))

end Sys2Proof.Machine
end

