-- ==== Sys2Proof/Machine/Operands.lean ====
section
/-! DEFINITION. Operand forms: the shifts, the effective address and the 16-bit chunks (30_encoding.md R61). Register operands
are plain indices (`State.readReg`), signed immediates enter as `wrap64` of the field; there is no other form (R61). -/

namespace Sys2Proof.Machine

/-- `v << k` (R6, R108). -/
def shiftLeft (v : Word) (k : Int) : Word := v <<< k.toNat

/-- `v >>u k`, zero-filling (R6, R107). -/
def shiftRightLogical (v : Word) (k : Int) : Word := v >>> k.toNat

/-- `v >>s k`, sign-preserving (R6, R106). -/
def shiftRightArith (v : Word) (k : Int) : Word := v.sshiftRight k.toNat

/-- `ea <- x[rn] + wrap64(4 * offset)`, modulo 2^64 (R130). -/
def State.effectiveAddress (s : State) (rn : Nat) (offset : Int) : Word :=
  s.readReg rn + wrap64 (4 * offset)

/-- `chunkValue = zext_64(imm16) << (16 * shift)` (R150). -/
def chunkValue (imm16 shift : Nat) : Word := BitVec.ofNat 64 imm16 <<< (16 * shift)

/-- `chunkMask = zext_64(0xFFFF) << (16 * shift)` (R150). -/
def chunkMask (shift : Nat) : Word := 0xFFFF#64 <<< (16 * shift)

end Sys2Proof.Machine
end

