-- ==== Sys2Proof/Machine/DFormat.lean ====
section
/-! DEFINITION. The two D-format instructions (43_d_format.md). -/

namespace Sys2Proof.Machine

/-- LDUR: the whole 64-bit cell is loaded; the base is read before the transfer register is written (R131, R89). -/
def execLdur (rt rn : Nat) (offset : Int) (s : State) : Result :=
  s.checked (.ldur rt rn offset)
    (s.alignedAccess (s.effectiveAddress rn offset)
      (.next (s.writeReg rt (s.memRead (s.effectiveAddress rn offset))).advance))

/-- STUR: the whole 64-bit register is stored, and `mem_hi` follows (R132). -/
def execStur (rt rn : Nat) (offset : Int) (s : State) : Result :=
  s.checked (.stur rt rn offset)
    (s.alignedAccess (s.effectiveAddress rn offset)
      (.next (s.memWrite (s.effectiveAddress rn offset) (s.readReg rt)).advance))

end Sys2Proof.Machine
end

