-- ==== Sys2Proof/Machine/RFormat.lean ====
section
/-! DEFINITION. The eight R-format instructions (41_r_format.md). -/

namespace Sys2Proof.Machine

/-- What every instruction with a computed register result does: `x[rd] <- r; pc <- a + 4`, and nothing else, after the
check of its operand fields (R100, R109, R120, R150). The value `r` is computed from the state before (R89). -/
def State.writeResult (s : State) (i : Instr) (rd : Nat) (r : Word) : Result :=
  s.checked i (.next (s.writeReg rd r).advance)

/-- AND (R101). -/
def execAnd (rd rn rm : Nat) (shamt : Int) (s : State) : Result :=
  s.writeResult (.and rd rn rm shamt) rd (s.readReg rn &&& s.readReg rm)

/-- ADD, modulo 2^64 (R102, R110). -/
def execAdd (rd rn rm : Nat) (shamt : Int) (s : State) : Result :=
  s.writeResult (.add rd rn rm shamt) rd (s.readReg rn + s.readReg rm)

/-- ORR (R103). -/
def execOrr (rd rn rm : Nat) (shamt : Int) (s : State) : Result :=
  s.writeResult (.orr rd rn rm shamt) rd (s.readReg rn ||| s.readReg rm)

/-- EOR (R104). -/
def execEor (rd rn rm : Nat) (shamt : Int) (s : State) : Result :=
  s.writeResult (.eor rd rn rm shamt) rd (s.readReg rn ^^^ s.readReg rm)

/-- SUB, first source minus second, modulo 2^64 (R105, R110). -/
def execSub (rd rn rm : Nat) (shamt : Int) (s : State) : Result :=
  s.writeResult (.sub rd rn rm shamt) rd (s.readReg rn - s.readReg rm)

/-- ASR by the constant `shamt` (R106). -/
def execAsr (rd rn rm : Nat) (shamt : Int) (s : State) : Result :=
  s.writeResult (.asr rd rn rm shamt) rd (shiftRightArith (s.readReg rn) shamt)

/-- LSR by the constant `shamt` (R107). -/
def execLsr (rd rn rm : Nat) (shamt : Int) (s : State) : Result :=
  s.writeResult (.lsr rd rn rm shamt) rd (shiftRightLogical (s.readReg rn) shamt)

/-- LSL by the constant `shamt` (R108). -/
def execLsl (rd rn rm : Nat) (shamt : Int) (s : State) : Result :=
  s.writeResult (.lsl rd rn rm shamt) rd (shiftLeft (s.readReg rn) shamt)

end Sys2Proof.Machine
end

