-- ==== Sys2Proof/Machine/IFormat.lean ====
section
/-! DEFINITION. The two I-format instructions (42_i_format.md). -/

namespace Sys2Proof.Machine

/-- ADDI: the immediate enters as its 64-bit sign extension (R120, R121). -/
def execAddi (rd rn : Nat) (imm : Int) (s : State) : Result :=
  s.writeResult (.addi rd rn imm) rd (s.readReg rn + wrap64 imm)

/-- SUBI (R120, R122). -/
def execSubi (rd rn : Nat) (imm : Int) (s : State) : Result :=
  s.writeResult (.subi rd rn imm) rd (s.readReg rn - wrap64 imm)

end Sys2Proof.Machine
end

