-- ==== Sys2Proof/Machine/ImFormat.lean ====
section
/-! DEFINITION. The two IM-format instructions (45_im_format.md). -/

namespace Sys2Proof.Machine

/-- MOVZ: the chunk's value, all other bits cleared; the old value is not read (R151). -/
def execMovz (rd imm16 shift : Nat) (s : State) : Result :=
  s.writeResult (.movz rd imm16 shift) rd (chunkValue imm16 shift)

/-- MOVK: only the addressed chunk is overwritten (R152). -/
def execMovk (rd imm16 shift : Nat) (s : State) : Result :=
  s.writeResult (.movk rd imm16 shift) rd
    ((s.readReg rd &&& ~~~(chunkMask shift)) ||| chunkValue imm16 shift)

end Sys2Proof.Machine
end

