-- ==== Sys2Proof/Machine/NopBreak.lean ====
section
/-! DEFINITION. NOP and BREAK (46_nop_break.md). -/

namespace Sys2Proof.Machine

/-- NOP: `pc <- a + 4` (R160). -/
def execNop (s : State) : Result := .next s.advance

/-- BREAK: `pc <- a + 4; halt` (R161). The cycle increment and the trace block of the step come after in `State.commit`, which
neither reads nor writes the run state, so the order of R162 cannot be told apart (log 7). -/
def execBreak (s : State) : Result := .next s.advance.halt

end Sys2Proof.Machine
end

