-- ==== Sys2Proof/Machine/Dispatch.lean ====
section
/-! DEFINITION. Dispatch by instruction (30_encoding.md R60; 40_engine_step.md R83): one arm per constructor. -/

namespace Sys2Proof.Machine

/-- The execution of one instruction: it reads and writes x, mem, mem_hi and pc, and may raise a fatal condition (R81). -/
def exec (i : Instr) (s : State) : Host.Outcome State Fault Refusal :=
  match i with
  | .and rd rn rm shamt => Sys2Proof.Machine.execAnd rd rn rm shamt s
  | .add rd rn rm shamt => Sys2Proof.Machine.execAdd rd rn rm shamt s
  | .orr rd rn rm shamt => Sys2Proof.Machine.execOrr rd rn rm shamt s
  | .eor rd rn rm shamt => Sys2Proof.Machine.execEor rd rn rm shamt s
  | .sub rd rn rm shamt => Sys2Proof.Machine.execSub rd rn rm shamt s
  | .asr rd rn rm shamt => Sys2Proof.Machine.execAsr rd rn rm shamt s
  | .lsr rd rn rm shamt => Sys2Proof.Machine.execLsr rd rn rm shamt s
  | .lsl rd rn rm shamt => Sys2Proof.Machine.execLsl rd rn rm shamt s
  | .addi rd rn imm => Sys2Proof.Machine.execAddi rd rn imm s
  | .subi rd rn imm => Sys2Proof.Machine.execSubi rd rn imm s
  | .ldur rt rn offset => Sys2Proof.Machine.execLdur rt rn offset s
  | .stur rt rn offset => Sys2Proof.Machine.execStur rt rn offset s
  | .b offset => Sys2Proof.Machine.execB offset s
  | .cbz rt offset => Sys2Proof.Machine.execCbz rt offset s
  | .cbnz rt offset => Sys2Proof.Machine.execCbnz rt offset s
  | .movz rd imm16 shift => Sys2Proof.Machine.execMovz rd imm16 shift s
  | .movk rd imm16 shift => Sys2Proof.Machine.execMovk rd imm16 shift s
  | .nop => Sys2Proof.Machine.execNop s
  | .brk => Sys2Proof.Machine.execBreak s

end Sys2Proof.Machine
end

