-- ==== Sys2Proof/Machine/Numerals.lean ====
section
/-! DEFINITION. The numerals of the trace and of the assembly text (30_encoding.md R72; 47_trace_recorder.md R176). -/

namespace Sys2Proof

/-- `dec(n)`: the plain decimal numeral of a natural number (R176). -/
def dec (n : Nat) : Text := Nat.toDigits 10 n

/-- The decimal numeral of an integer, with a leading `-` when negative (R72, R176). -/
def decInt : Int → Text
  | .ofNat n => dec n
  | .negSucc n => '-' :: dec (n + 1)

/-- `sdec(v)`: the decimal numeral of the signed value `s(v)` (R176). -/
def sdec (v : Word) : Text := decInt v.toInt

end Sys2Proof
end

