-- ==== Sys2Proof/Machine/Trace.lean ====
section
/-! DEFINITION. The TraceRecorder: the snapshot as data, and its text (47_trace_recorder.md). The recorder only reads the state
and appends to `trace` (R170). The text is a replaceable function of the snapshot (R172, D18; log 9). -/

namespace Sys2Proof.Machine

namespace State

/-! ### The snapshot as data (R172 to R175) -/

/-- The number of dumped words: from `DATA_BASE` through `mem_hi`, none when `mem_hi` is absent or lower (R174). -/
def nwords (s : State) : Nat :=
  match s.memHi with
  | none => 0
  | some hi => if (s.dataBase : Int) ≤ hi then ((hi - s.dataBase) / 4).toNat + 1 else 0

/-- `nrows = ceil(nwords / 8)` (R175). -/
def nrows (s : State) : Nat := (s.nwords + 7) / 8

/-- The value shown for a dumped address: the cell, or the placeholder zero above `mem_hi` (R174, R175). -/
def dumpValue (s : State) (a : Nat) : Word :=
  match s.memHi with
  | none => 0
  | some hi => if (a : Int) ≤ hi then Memory.read s.mem a else 0

/-- Row `r`: label `DATA_BASE + 32 * r` and the eight values from there in steps of 4 (R175). -/
def dumpRow (s : State) (r : Nat) : MemRow where
  label := s.dataBase + 32 * r
  values := Vector.ofFn fun j => s.dumpValue (s.dataBase + 32 * r + 4 * j.val)

/-- The memory dump (R174, R175). -/
def memDump (s : State) : List MemRow := (List.range s.nrows).map s.dumpRow

/-- The snapshot `(c, addr, text, regs, rows)` of the state an instruction left, labelled with the executed record (R171,
R172). -/
def snapshot (s : State) (r : Record) : Snapshot where
  cycle := s.cycle
  addr := r.addr
  text := r.text
  regs := s.regs
  rows := s.memDump

/-- `cycle <- cycle + 1` (R85). -/
def tick (s : State) : State := { s with cycle := s.cycle + 1 }

/-- The recorder appends one block (R86, R183). -/
def emit (s : State) (r : Record) : State := { s with trace := s.trace ++ [s.snapshot r] }

/-- What ends every step that executed an instruction: the cycle increment, then the trace block (R81, R85, R86). -/
def commit (s : State) (r : Record) : State := s.tick.emit r

end State

/-! ### The text of a block (R176 to R182) -/

/-- Values of one row: a TAB and the signed decimal of each (R180, R181). -/
def valuesText (vs : List Word) : Text := (vs.map fun v => '\t' :: sdec v).flatten

/-- Separator line: twenty `=` (R179). -/
def separatorText : Text := List.replicate 20 '=' ++ ['\n']

/-- Header line (R177). -/
def headerText (b : Snapshot) : Text :=
  "cycle:".toList ++ dec b.cycle ++ ['\t'] ++ dec b.addr ++ ['\t'] ++ b.text ++ ['\n']

/-- A register row's label index as two decimal digits (R180). -/
def twoDigits (n : Nat) : Text := if n < 10 then '0' :: dec n else dec n

/-- Register row `k`: `x[8k] .. x[8k+7]` (R173, R180). -/
def regRowText (b : Snapshot) (k : Nat) : Text :=
  'r' :: twoDigits (8 * k) ++ [':'] ++ valuesText ((b.regs.toList.drop (8 * k)).take 8) ++ ['\n']

/-- Memory row (R181). -/
def memRowText (r : MemRow) : Text :=
  dec r.label ++ [':'] ++ valuesText r.values.toList ++ ['\n']

/-- The whole block, by the template of R178: separator, header, blank line, four register rows, blank line, memory rows, blank
line, `9 + nrows` lines. DEDUCED: R178's sentence says `8 + nrows`, against its own template and list (log 22). -/
def Snapshot.blockText (b : Snapshot) : Text :=
  separatorText ++ headerText b ++ ['\n'] ++
    (regRowText b 0 ++ regRowText b 1 ++ regRowText b 2 ++ regRowText b 3) ++ ['\n'] ++
    (b.rows.map memRowText).flatten ++ ['\n']

/-- The trace as the host reads it: the blocks one after another, nothing between them (R183). -/
def State.traceText (s : State) : Text := (s.trace.map Snapshot.blockText).flatten

/-- The exit status the surrounding software presents: 0 when halted, 1 when faulted (60_exceptions.md R204). DESIGN CHOICE:
none while running (log 14). -/
def State.exitStatus (s : State) : Option Nat :=
  match s.run with
  | .running => none
  | .halted => some 0
  | .faulted => some 1

end Sys2Proof.Machine
end

