-- ==== Sys2Proof/Machine/Engine.lean ====
section
/-! DEFINITION. The ExecutionEngine's step: fetch, dispatch, execute, count, trace (40_engine_step.md R81 to R89). -/

namespace Sys2Proof.Machine

/-- The end of a step in which `exec` answered: a state in which a fatal condition was raised stands as it is, any other gets
the cycle increment and the trace block (R81, R195). -/
def completeStep (r : Record) : Result → Result
  | .next t => if t.run = .faulted then .next t else .next (t.commit r)
  | .fault f => .fault f
  | .refused q => .refused q

/-- A fetched record, found at the address `a`: the checks of R83 in the order of R197, then the execution. The operand
fields are checked by the instruction's own meaning (`State.checked`; log 8). -/
def executeRecord (s : State) (a : Nat) (r : Record) : Result :=
  match r.shape with
  | .unsupported w => .next (s.raise .unsupportedInstruction (.unsupported r.addr w))
  | .instr i =>
    if r.addr = a then completeStep r (exec i s)
    else .next (s.raise .malformedOperand (.address r.addr))

/-- A step of a running machine: the fetch at `u(pc)` (R82), then the record. -/
def runningStep (s : State) : Result :=
  match s.ifetch s.pc.toNat with
  | none => .next (s.raise .instructionFetchOutOfRange (.address s.pc.toNat))
  | some r => executeRecord s s.pc.toNat r

/-- A step exists exactly when `run = running` (R81). -/
def engineStep (s : State) : Result :=
  match s.run with
  | .running => runningStep s
  | .halted => .fault .halted
  | .faulted => .fault .faulted

end Sys2Proof.Machine
end

