-- ==== Sys2Proof/Decode.lean ====
section
/-! DEFINITION. The default `DECODE`: from a 32-bit instruction word to a record, and the encoder written from the same tables
(30_encoding.md R62 to R69, R72). The layout is the spec's decision D14, which it takes from general knowledge: UNVERIFIED (log 6). No
meaning depends on this file; it is total, and a word that matches no pattern decodes to `Unsupported(w)`. -/

namespace Sys2Proof

/-- `u(w[hi:lo])` (R6). -/
def ufield (w : InstrWord) (hi lo : Nat) : Nat := (w.extractLsb hi lo).toNat

/-- `s(w[hi:lo])` (R6). -/
def sfield (w : InstrWord) (hi lo : Nat) : Int := (w.extractLsb hi lo).toInt

/-- An R-format word's fields (R63). -/
def decodeR (op : Nat → Nat → Nat → Int → Instr) (w : InstrWord) : Instr :=
  op (ufield w 4 0) (ufield w 9 5) (ufield w 20 16) (ufield w 15 10)

/-- An I-format word's fields (R64). -/
def decodeI (op : Nat → Nat → Int → Instr) (w : InstrWord) : Instr :=
  op (ufield w 4 0) (ufield w 9 5) (sfield w 21 10)

/-- A D-format word's fields; bits 11 and 10 are ignored (R65). -/
def decodeD (op : Nat → Nat → Int → Instr) (w : InstrWord) : Instr :=
  op (ufield w 4 0) (ufield w 9 5) (sfield w 20 12)

/-- A CB-format word's fields (R67). -/
def decodeCB (op : Nat → Int → Instr) (w : InstrWord) : Instr :=
  op (ufield w 4 0) (sfield w 23 5)

/-- An IM-format word's fields (R68). -/
def decodeIM (op : Nat → Nat → Nat → Instr) (w : InstrWord) : Instr :=
  op (ufield w 4 0) (ufield w 20 5) (ufield w 22 21)

/-- One row of the opcode map at word level: the opcode stands in bits `hi..lo` and has the value `opcode`; `build` reads the
operand fields. -/
structure OpcodeRow where
  hi : Nat
  lo : Nat
  opcode : Nat
  build : InstrWord → Instr

/-- The word carries the row's opcode. -/
def OpcodeRow.fits (r : OpcodeRow) (w : InstrWord) : Bool := ufield w r.hi r.lo == r.opcode

/-- R-format rows, by the opcode numbers of R63. -/
def rRows : List OpcodeRow :=
  [⟨31, 21, 1104, decodeR .and⟩, ⟨31, 21, 1112, decodeR .add⟩, ⟨31, 21, 1360, decodeR .orr⟩,
   ⟨31, 21, 1872, decodeR .eor⟩, ⟨31, 21, 1624, decodeR .sub⟩, ⟨31, 21, 1692, decodeR .asr⟩,
   ⟨31, 21, 1690, decodeR .lsr⟩, ⟨31, 21, 1691, decodeR .lsl⟩]

/-- The other formats' rows (R64 to R69). NOP and BREAK are matched on all 32 bits (R69). -/
def otherRows : List OpcodeRow :=
  [⟨31, 22, 580, decodeI .addi⟩, ⟨31, 22, 836, decodeI .subi⟩,
   ⟨31, 21, 1986, decodeD .ldur⟩, ⟨31, 21, 1984, decodeD .stur⟩,
   ⟨31, 26, 5, fun w => .b (sfield w 25 0)⟩,
   ⟨31, 24, 180, decodeCB .cbz⟩, ⟨31, 24, 181, decodeCB .cbnz⟩,
   ⟨31, 23, 421, decodeIM .movz⟩, ⟨31, 23, 485, decodeIM .movk⟩,
   ⟨31, 0, 0x00000000, fun _ => .nop⟩, ⟨31, 0, 0xFEDEFFE7, fun _ => .brk⟩]

/-- The opcode map; its patterns are pairwise disjoint, so the order does not matter (R62). -/
def opcodeRows : List OpcodeRow := rRows ++ otherRows

/-- The instruction of the first row that fits. -/
def firstFit : List OpcodeRow → InstrWord → Option Instr
  | [], _ => none
  | r :: rs, w => if r.fits w then some (r.build w) else firstFit rs w

/-- The instruction a word stands for, or none when it matches no pattern (R62, R69). -/
def decodeInstr (w : InstrWord) : Option Instr := firstFit opcodeRows w

/-- What the word decodes to; every word matching no pattern is `Unsupported(w)` (R69). -/
def decodeShape (w : InstrWord) : Shape :=
  match decodeInstr w with
  | some i => .instr i
  | none => .unsupported w

/-- A register in assembly text: `R0` .. `R31` (R72). -/
def regText (i : Nat) : Text := 'R' :: dec i

/-- `<op> R<rd>, R<rn>, R<rm>` (R72). -/
def textRRR (op : Text) (rd rn rm : Nat) : Text :=
  op ++ " ".toList ++ regText rd ++ ", ".toList ++ regText rn ++ ", ".toList ++ regText rm

/-- `<op> R<rd>, R<rn>, #<n>` (R72). -/
def textRRN (op : Text) (rd rn : Nat) (n : Int) : Text :=
  op ++ " ".toList ++ regText rd ++ ", ".toList ++ regText rn ++ ", #".toList ++ decInt n

/-- `<op> R<rt>, [R<rn>, #<offset>]` (R72). -/
def textD (op : Text) (rt rn : Nat) (offset : Int) : Text :=
  op ++ " ".toList ++ regText rt ++ ", [".toList ++ regText rn ++ ", #".toList ++ decInt offset ++ "]".toList

/-- `<op> R<rt>, #<offset>` (R72). -/
def textCB (op : Text) (rt : Nat) (offset : Int) : Text :=
  op ++ " ".toList ++ regText rt ++ ", #".toList ++ decInt offset

/-- `<op> R<rd>, <imm16>, LSL <16*shift>` (R72). -/
def textIM (op : Text) (rd imm16 shift : Nat) : Text :=
  op ++ " ".toList ++ regText rd ++ ", ".toList ++ dec imm16 ++ ", LSL ".toList ++ dec (16 * shift)

/-- The assembly text that the default `DECODE` writes (R62, R72). -/
def Instr.text : Instr → Text
  | .and rd rn rm _ => textRRR "AND".toList rd rn rm
  | .add rd rn rm _ => textRRR "ADD".toList rd rn rm
  | .orr rd rn rm _ => textRRR "ORR".toList rd rn rm
  | .eor rd rn rm _ => textRRR "EOR".toList rd rn rm
  | .sub rd rn rm _ => textRRR "SUB".toList rd rn rm
  | .asr rd rn _ shamt => textRRN "ASR".toList rd rn shamt
  | .lsr rd rn _ shamt => textRRN "LSR".toList rd rn shamt
  | .lsl rd rn _ shamt => textRRN "LSL".toList rd rn shamt
  | .addi rd rn imm => textRRN "ADDI".toList rd rn imm
  | .subi rd rn imm => textRRN "SUBI".toList rd rn imm
  | .ldur rt rn offset => textD "LDUR".toList rt rn offset
  | .stur rt rn offset => textD "STUR".toList rt rn offset
  | .b offset => "B #".toList ++ decInt offset
  | .cbz rt offset => textCB "CBZ".toList rt offset
  | .cbnz rt offset => textCB "CBNZ".toList rt offset
  | .movz rd imm16 shift => textIM "MOVZ".toList rd imm16 shift
  | .movk rd imm16 shift => textIM "MOVK".toList rd imm16 shift
  | .nop => "NOP".toList
  | .brk => "BREAK".toList

/-- The text of a decoded shape; an unsupported record's text is never printed and is left empty (log 10). -/
def Shape.text : Shape → Text
  | .instr i => i.text
  | .unsupported _ => []

/-- `DECODE(a, w)`: the record of the word `w` found at instruction address `a` (R62). -/
def decode (a : Nat) (w : InstrWord) : Record :=
  { addr := a, text := (decodeShape w).text, shape := decodeShape w }

/-- The instruction the decoder reads from an opcode-table word: `nbits` bits, the bits above them zero. Every word of this
hardware has 32 bits (R62); a longer one is refused. -/
def decodeTableWord (nbits w : Nat) : Option Instr :=
  if nbits ≤ 32 then decodeInstr (BitVec.ofNat 32 (w % 2 ^ nbits)) else none

/-- An R-format word, `match | rm<<16 | shamt<<10 | rn<<5 | rd` (R63, R101 to R108). -/
def encodeR (base rd rn rm : Nat) (shamt : Int) : InstrWord :=
  BitVec.ofNat 32 (base + rm * 2 ^ 16 + shamt.toNat * 2 ^ 10 + rn * 2 ^ 5 + rd)

/-- An I-format word, `match | (imm mod 4096)<<10 | rn<<5 | rd` (R64, R121, R122). -/
def encodeI (base rd rn : Nat) (imm : Int) : InstrWord :=
  BitVec.ofNat 32 (base + (imm % 2 ^ 12).toNat * 2 ^ 10 + rn * 2 ^ 5 + rd)

/-- A D-format word, `match | (offset mod 512)<<12 | rn<<5 | rt`; the ignored bits are zero (R65, R131, R132). -/
def encodeD (base rt rn : Nat) (offset : Int) : InstrWord :=
  BitVec.ofNat 32 (base + (offset % 2 ^ 9).toNat * 2 ^ 12 + rn * 2 ^ 5 + rt)

/-- A CB-format word, `match | (offset mod 2^19)<<5 | rt` (R67, R142, R143). -/
def encodeCB (base rt : Nat) (offset : Int) : InstrWord :=
  BitVec.ofNat 32 (base + (offset % 2 ^ 19).toNat * 2 ^ 5 + rt)

/-- An IM-format word, `match | shift<<21 | imm16<<5 | rd` (R68, R151, R152). -/
def encodeIM (base rd imm16 shift : Nat) : InstrWord :=
  BitVec.ofNat 32 (base + shift * 2 ^ 21 + imm16 * 2 ^ 5 + rd)

/-- The word of a well-formed instruction, by the `match` values of R63 to R69. -/
def encode : Instr → InstrWord
  | .and rd rn rm shamt => encodeR 0x8A000000 rd rn rm shamt
  | .add rd rn rm shamt => encodeR 0x8B000000 rd rn rm shamt
  | .orr rd rn rm shamt => encodeR 0xAA000000 rd rn rm shamt
  | .eor rd rn rm shamt => encodeR 0xEA000000 rd rn rm shamt
  | .sub rd rn rm shamt => encodeR 0xCB000000 rd rn rm shamt
  | .asr rd rn rm shamt => encodeR 0xD3800000 rd rn rm shamt
  | .lsr rd rn rm shamt => encodeR 0xD3400000 rd rn rm shamt
  | .lsl rd rn rm shamt => encodeR 0xD3600000 rd rn rm shamt
  | .addi rd rn imm => encodeI 0x91000000 rd rn imm
  | .subi rd rn imm => encodeI 0xD1000000 rd rn imm
  | .ldur rt rn offset => encodeD 0xF8400000 rt rn offset
  | .stur rt rn offset => encodeD 0xF8000000 rt rn offset
  | .b offset => BitVec.ofNat 32 (0x14000000 + (offset % 2 ^ 26).toNat)
  | .cbz rt offset => encodeCB 0xB4000000 rt offset
  | .cbnz rt offset => encodeCB 0xB5000000 rt offset
  | .movz rd imm16 shift => encodeIM 0xD2800000 rd imm16 shift
  | .movk rd imm16 shift => encodeIM 0xF2800000 rd imm16 shift
  | .nop => 0x00000000#32
  | .brk => 0xFEDEFFE7#32

end Sys2Proof
end

