-- ==== Sys2Proof/Machine/Load.lean ====
section
/-! DEFINITION. Program load (70_reset_and_hazards.md R221, R222) and the historical input format (30_encoding.md R69). The load
is the host's act before the run; from `State.reset` no instruction runs until a program is loaded (log 5). -/

namespace Sys2Proof.Machine

/-- The load of the two inputs of R221 into a machine just reset: the instruction records and the initial memory image. -/
def State.load (cfg : Config) (prog : Store) (image : Memory) : State :=
  { State.resetWith cfg with istore := prog, mem := image, memHi := Memory.highest image }

/-- The records of a list of instruction words from address `a` on, through any decoder (R62; parameter DECODE, D14). -/
def recordsFrom (dec : Nat → InstrWord → Record) : Nat → List InstrWord → Store
  | _, [] => []
  | a, w :: ws => (a, dec a w) :: recordsFrom dec (a + 4) ws

/-- The cells of a list of data words from address `a` on, each sign-extended to 64 bits (R69). -/
def imageFrom : Nat → List InstrWord → Memory
  | _, [] => []
  | a, w :: ws => ((a : Int), w.signExtend 64) :: imageFrom (a + 4) ws

/-- The words up to and including the first BREAK word, and the data words after it (R69; log 16). DESIGN CHOICE: the word that
ends the code is the default layout's `0xFEDEFFE7` whatever decoder is used; for another DECODE (R5) the spec does not say how
code and data are separated (log 16). -/
def splitAtBreak : List InstrWord → List InstrWord × List InstrWord
  | [] => ([], [])
  | w :: ws =>
    if w = 0xFEDEFFE7#32 then ([w], ws)
    else (w :: (splitAtBreak ws).1, (splitAtBreak ws).2)

/-- The load of a program given in the historical input format: instruction words, BREAK, data words (R69). The decoder `dec`
gives the records alone; where the code ends is `splitAtBreak`'s choice (log 16). -/
def State.loadWords (dec : Nat → InstrWord → Record) (cfg : Config) (ws : List InstrWord) : State :=
  let code := (splitAtBreak ws).1
  State.load cfg (recordsFrom dec cfg.entryPc code)
    (imageFrom (cfg.entryPc + 4 * code.length) (splitAtBreak ws).2)

/-- The state with the record `r` placed at the address `a` of its InstructionStore; used by `withFetchWord` (log 5). -/
def State.placeRecord (s : State) (a : Nat) (r : Record) : State :=
  { s with istore := Store.insert s.istore a r }

end Sys2Proof.Machine
end

