-- ==== Sys2Proof/Machine/Step.lean ====
section
/-! DEFINITION. The machine's step, and the placing of one instruction word where the next step fetches it. -/

namespace Sys2Proof.Machine

/-- One step (40_engine_step.md R81). -/
def step (s : State) : Host.Outcome State Fault Refusal := engineStep s

/-- `s` with the record of an instruction word stored where `step` fetches next, at `u(pc)` in the InstructionStore, so that
the very next step of a running machine fetches and runs exactly it. It stands for the load of R221 (log 5). -/
def State.withFetchWord (s : State) (nbits w : Nat) : State :=
  s.placeRecord s.pc.toNat (decode s.pc.toNat (BitVec.ofNat 32 (w % 2 ^ nbits)))

end Sys2Proof.Machine
end

