-- ==== Sys2Proof/Safety.lean ====
section
/-! DEFINITION. The terms claims are stated in: several steps, the loader's premises, the invariant of every state a loaded
machine reaches, and what a safe run is. -/

namespace Sys2Proof.Machine

/-- `n` steps lead from `s` to `t`, each answering a next state (40_engine_step.md R88). -/
def Steps : Nat → State → State → Prop
  | 0, s, t => t = s
  | n + 1, s, t => ∃ u, step s = .next u ∧ Steps n u t

/-- The record at the program counter is the instruction `i`, stored under its own address (R82, R83). -/
def State.Fetches (s : State) (i : Instr) : Prop :=
  ∃ r, s.ifetch s.pc.toNat = some r ∧ r.addr = s.pc.toNat ∧ r.shape = .instr i

/-- The next instruction of `s` is a STUR whose effective address is `a`, read as a signed address (R132). -/
def State.StoresTo (s : State) (a : Int) : Prop :=
  ∃ rt rn offset, s.Fetches (.stur rt rn offset) ∧ (s.effectiveAddress rn offset).toInt = a

/-- The loader's premises on the InstructionStore: a contiguous run of addresses from `ENTRY_PC` on, each record carrying its
own address, far below the 64-bit wrap (20_memory.md R39; 70_reset_and_hazards.md R222 points 1 and 2). -/
structure StoreOk (cfg : Config) (prog : Store) : Prop where
  entryAligned : cfg.entryPc % 4 = 0
  nonEmpty : 1 ≤ prog.length
  bounded : cfg.entryPc + 4 * prog.length ≤ 2 ^ 62
  contiguous : ∀ k r, prog[k]? = some r → r.1 = cfg.entryPc + 4 * k ∧ r.2.addr = r.1

/-- The loader's premises on the initial memory image: word-aligned addresses at or above `DATA_BASE`, each at most once
(20_memory.md R46; R222 point 4). The image is given in the model's canonical form. -/
structure ImageOk (cfg : Config) (prog : Store) (image : Memory) : Prop where
  canonical : Memory.wf image
  aboveBase : ∀ c ∈ image, (cfg.entryPc : Int) + 4 * prog.length ≤ c.1

/-- The invariant of the machine: what every state that a loaded machine reaches satisfies. -/
structure State.Inv (s : State) : Prop where
  /-- DataMemory is in its canonical form, word-aligned addresses only (R31). -/
  memWf : Memory.wf s.mem
  /-- `mem_hi` is the largest key of `mem` (R20). -/
  memHi : s.memHi = Memory.highest s.mem
  /-- `pc` is a multiple of 4 (R15). -/
  pcAligned : s.pc.toNat % 4 = 0
  /-- A hardwired register 31 holds zero (R13). -/
  zeroReg : s.cfg.r31IsZero = true → s.x[31] = 0
  /-- There is a fault record exactly when the run is faulted (R19). -/
  faultIff : s.fault.isSome = true ↔ s.run = .faulted
  /-- The blocks emitted so far are labelled 1 .. `cycle` in that order (R91). -/
  labels : s.trace.map Snapshot.cycle = (List.range s.cycle).map (· + 1)

/-- A run is safe in `s` when no fatal condition has ended it (R88, R223). -/
def State.Safe (s : State) : Prop := s.run ≠ .faulted

end Sys2Proof.Machine
end

