-- ==== Sys2Proof/Certificates/Slice0/Obligations.lean ====
section
/-! DEFINITION. The statements for the provers, and the few terms of the spec they are written in. Register reads, the
effective address and the fetch are the model's (`readReg`, `effectiveAddress`, `ifetch`); results are written in the spec's own
arithmetic (00_scope.md R6), not by the functions the meanings call. -/

namespace Sys2Proof.Claims

open Sys2Proof Sys2Proof.Machine

/-! ### Terms -/

/-- The domains of the operand fields, format by format (R51 to R57). -/
def FieldsInDomain : Instr → Prop
  | .and rd rn rm k => rd < 32 ∧ rn < 32 ∧ rm < 32 ∧ 0 ≤ k ∧ k ≤ 63
  | .add rd rn rm k => rd < 32 ∧ rn < 32 ∧ rm < 32 ∧ 0 ≤ k ∧ k ≤ 63
  | .orr rd rn rm k => rd < 32 ∧ rn < 32 ∧ rm < 32 ∧ 0 ≤ k ∧ k ≤ 63
  | .eor rd rn rm k => rd < 32 ∧ rn < 32 ∧ rm < 32 ∧ 0 ≤ k ∧ k ≤ 63
  | .sub rd rn rm k => rd < 32 ∧ rn < 32 ∧ rm < 32 ∧ 0 ≤ k ∧ k ≤ 63
  | .asr rd rn rm k => rd < 32 ∧ rn < 32 ∧ rm < 32 ∧ 0 ≤ k ∧ k ≤ 63
  | .lsr rd rn rm k => rd < 32 ∧ rn < 32 ∧ rm < 32 ∧ 0 ≤ k ∧ k ≤ 63
  | .lsl rd rn rm k => rd < 32 ∧ rn < 32 ∧ rm < 32 ∧ 0 ≤ k ∧ k ≤ 63
  | .addi rd rn v => rd < 32 ∧ rn < 32 ∧ -2048 ≤ v ∧ v ≤ 2047
  | .subi rd rn v => rd < 32 ∧ rn < 32 ∧ -2048 ≤ v ∧ v ≤ 2047
  | .ldur rt rn v => rt < 32 ∧ rn < 32 ∧ -256 ≤ v ∧ v ≤ 255
  | .stur rt rn v => rt < 32 ∧ rn < 32 ∧ -256 ≤ v ∧ v ≤ 255
  | .b v => -33554432 ≤ v ∧ v ≤ 33554431
  | .cbz rt v => rt < 32 ∧ -262144 ≤ v ∧ v ≤ 262143
  | .cbnz rt v => rt < 32 ∧ -262144 ≤ v ∧ v ≤ 262143
  | .movz rd v k => rd < 32 ∧ v ≤ 65535 ∧ k ≤ 3
  | .movk rd v k => rd < 32 ∧ v ≤ 65535 ∧ k ≤ 3
  | .nop => True
  | .brk => True

/-- The state a fatal condition leaves: the fault record and the run state, and nothing else (R195). -/
def Raised (s : State) (cause : Cause) (info : FaultInfo) : State :=
  { s with run := .faulted, fault := some ⟨cause, s.pc, info⟩ }

/-- Executed with a field out of its domain, an instruction raises MalformedOperand and does nothing else (R58, R193). -/
def RaisesOutOfDomain (i : Instr) : Prop :=
  ¬ FieldsInDomain i → ∀ s : State, exec i s = .next (Raised s .malformedOperand (.address s.pc.toNat))

/-- `x[rd] <- v; pc <- a + 4` and nothing else: every other register reads and stands as before, a write to a hardwired
register 31 is discarded, and no other element of the state changes (R12, R13, R84, R100). -/
def WritesOnly (s t : State) (rd : Nat) (v : Word) : Prop :=
  t = { s with x := t.x, pc := s.pc + 4#64 } ∧
  (∀ i < 32, t.readReg i =
    if s.cfg.r31IsZero = true ∧ i = 31 then 0 else if i = rd then v else s.readReg i) ∧
  (∀ i, i ≠ rd → t.x[i]? = s.x[i]?) ∧
  (s.cfg.r31IsZero = true ∧ rd = 31 → t.x = s.x)

/-- An R-format operation: on every state and all operands in range it completes with the result `f x[rn] x[rm] shamt` in
`x[rd]`, on any other operands it raises MalformedOperand, and the word `base | rm<<16 | shamt<<10 | rn<<5 | rd` stands for
it. -/
def ROperation (op : Nat → Nat → Nat → Int → Instr) (base : Nat) (f : Word → Word → Nat → Word) : Prop :=
  (∀ (rd rn rm : Nat) (shamt : Int), RaisesOutOfDomain (op rd rn rm shamt)) ∧
  ∀ (s : State) (rd rn rm shamt : Nat), rd < 32 → rn < 32 → rm < 32 → shamt < 64 →
    (∃ t, exec (op rd rn rm shamt) s = .next t ∧
      WritesOnly s t rd (f (s.readReg rn) (s.readReg rm) shamt)) ∧
    decodeInstr (BitVec.ofNat 32 (base ||| rm <<< 16 ||| shamt <<< 10 ||| rn <<< 5 ||| rd)) =
      some (op rd rn rm shamt)

/-- An I-format operation: the result `wrap64 (f u(x[rn]) imm)` in `x[rd]`, MalformedOperand out of range, and the word
`base | (imm mod 4096)<<10 | rn<<5 | rd` stands for it. -/
def IOperation (op : Nat → Nat → Int → Instr) (base : Nat) (f : Int → Int → Int) : Prop :=
  (∀ (rd rn : Nat) (imm : Int), RaisesOutOfDomain (op rd rn imm)) ∧
  ∀ (s : State) (rd rn : Nat) (imm : Int), rd < 32 → rn < 32 → -2048 ≤ imm → imm ≤ 2047 →
    (∃ t, exec (op rd rn imm) s = .next t ∧
      WritesOnly s t rd (wrap64 (f ((s.readReg rn).toNat : Int) imm))) ∧
    decodeInstr (BitVec.ofNat 32 (base ||| (imm % 4096).toNat <<< 10 ||| rn <<< 5 ||| rd)) =
      some (op rd rn imm)

/-- A CB-format operation: taken when `test x[rt]`, to `a + wrap64(4 * offset)`, else to `a + 4`; nothing but `pc` changes;
MalformedOperand out of range; the word `base | (offset mod 2^19)<<5 | rt` stands for it. -/
def CBOperation (op : Nat → Int → Instr) (base : Nat) (test : Nat → Prop) : Prop :=
  (∀ (rt : Nat) (offset : Int), RaisesOutOfDomain (op rt offset)) ∧
  ∀ (s : State) (rt : Nat) (offset : Int), rt < 32 → -262144 ≤ offset → offset ≤ 262143 →
    (test (s.readReg rt).toNat →
      exec (op rt offset) s = .next { s with pc := s.pc + wrap64 (4 * offset) }) ∧
    (¬ test (s.readReg rt).toNat → exec (op rt offset) s = .next { s with pc := s.pc + 4#64 }) ∧
    decodeInstr (BitVec.ofNat 32 (base ||| (offset % 524288).toNat <<< 5 ||| rt)) = some (op rt offset)

/-- The register an instruction writes, if it writes one (the last column of R12's table). -/
def destination : Instr → Option Nat
  | .and rd _ _ _ => some rd
  | .add rd _ _ _ => some rd
  | .orr rd _ _ _ => some rd
  | .eor rd _ _ _ => some rd
  | .sub rd _ _ _ => some rd
  | .asr rd _ _ _ => some rd
  | .lsr rd _ _ _ => some rd
  | .lsl rd _ _ _ => some rd
  | .addi rd _ _ => some rd
  | .subi rd _ _ => some rd
  | .ldur rt _ _ => some rt
  | .stur _ _ _ => none
  | .b _ => none
  | .cbz _ _ => none
  | .cbnz _ _ => none
  | .movz rd _ _ => some rd
  | .movk rd _ _ => some rd
  | .nop => none
  | .brk => none

/-- The registers an instruction reads (the middle column of R12's table). -/
def sources : Instr → List Nat
  | .and _ rn rm _ => [rn, rm]
  | .add _ rn rm _ => [rn, rm]
  | .orr _ rn rm _ => [rn, rm]
  | .eor _ rn rm _ => [rn, rm]
  | .sub _ rn rm _ => [rn, rm]
  | .asr _ rn _ _ => [rn]
  | .lsr _ rn _ _ => [rn]
  | .lsl _ rn _ _ => [rn]
  | .addi _ rn _ => [rn]
  | .subi _ rn _ => [rn]
  | .ldur _ rn _ => [rn]
  | .stur rt rn _ => [rn, rt]
  | .b _ => []
  | .cbz rt _ => [rt]
  | .cbnz rt _ => [rt]
  | .movz _ _ _ => []
  | .movk rd _ _ => [rd]
  | .nop => []
  | .brk => []

/-- The data address an instruction stores to, by the function the meaning applies to the same state, if it stores. -/
def storeAddress (s : State) : Instr → Option Int
  | .stur _ rn offset => some (s.effectiveAddress rn offset).toInt
  | _ => none

/-- A block shows a state and the record executed into it (R171, R172). -/
def BlockShows (b : Snapshot) (t : State) (r : Record) : Prop :=
  b.cycle = t.cycle ∧ b.addr = r.addr ∧ b.text = r.text ∧
  (∀ i < 32, b.regs[i]? = some (t.readReg i)) ∧ b.rows = t.memDump

/-- Two states that differ at most in the text of their records and in the blocks emitted so far. -/
def AgreeButForText (s t : State) : Prop :=
  { s with trace := [], istore := [] } = { t with trace := [], istore := [] } ∧
  s.istore.map (fun e => (e.1, e.2.addr, e.2.shape)) = t.istore.map (fun e => (e.1, e.2.addr, e.2.shape))

/-- The value of a decimal numeral. -/
def numeralValue (ds : Text) : Nat := ds.foldl (fun acc c => 10 * acc + (c.toNat - 48)) 0

/-- The values of a dump row as text: a TAB before each signed decimal. -/
def tabbed (vs : List Word) : Text := vs.flatMap fun v => '\t' :: sdec v

/-- One line of the register dump: `r`, the label's two digits, `:`, the eight values (R180). -/
def registerLine (b : Snapshot) (label : Text) (k : Nat) : Text :=
  'r' :: label ++ ':' :: tabbed ((List.range 8).map fun j => (b.regs[8 * k + j]?).getD 0)

end Sys2Proof.Claims

open Sys2Proof Sys2Proof.Machine Sys2Proof.Claims

/-! ### Reset, load, configuration -/

/-- R220. Every element at its reset value, under any parameters; the machine's own reset is the one under the spec's default
parameters 96 and false (R5; log 4). -/
def Obligations.ResetLeavesSpecValues : Prop :=
  (∀ cfg : Config, (∀ i < 32, (State.resetWith cfg).x[i]? = some 0 ∧ (State.resetWith cfg).readReg i = 0) ∧
    (State.resetWith cfg).pc = wrap64 cfg.entryPc ∧ (State.resetWith cfg).cycle = 0 ∧
    (State.resetWith cfg).run = .running ∧ (State.resetWith cfg).fault = none ∧
    (State.resetWith cfg).trace = [] ∧ (State.resetWith cfg).mem = [] ∧ (State.resetWith cfg).memHi = none ∧
    (State.resetWith cfg).cfg = cfg) ∧
  State.reset = State.resetWith ⟨96, false⟩

/-- R221. The load: the records become the InstructionStore, the image becomes `mem`, `mem_hi` the image's largest address
(none when it is empty), DATA_BASE follows the last record, and nothing else is changed from reset. -/
def Obligations.LoadFillsStoreAndMemory : Prop :=
  ∀ (cfg : Config) (prog : Store) (image : Memory),
    (State.load cfg prog image).istore = prog ∧ (State.load cfg prog image).mem = image ∧
    (State.load cfg prog image).dataBase = cfg.entryPc + 4 * prog.length ∧
    (image = [] → (State.load cfg prog image).memHi = none) ∧
    (image ≠ [] → ∃ hi v, (State.load cfg prog image).memHi = some hi ∧ (hi, v) ∈ image ∧ ∀ c ∈ image, c.1 ≤ hi) ∧
    { State.load cfg prog image with istore := [], mem := [], memHi := none } = State.resetWith cfg

/-- The invariant holds at reset whenever ENTRY_PC is a multiple of 4, and so for the default parameters (log 4). -/
def Obligations.InvariantHoldsAtReset : Prop :=
  (∀ cfg : Config, cfg.entryPc % 4 = 0 → (State.resetWith cfg).Inv) ∧ State.reset.Inv

/-- The invariant holds after a load that meets the loader's premises (R222). -/
def Obligations.InvariantHoldsAfterLoad : Prop :=
  ∀ (cfg : Config) (prog : Store) (image : Memory), StoreOk cfg prog → ImageOk cfg prog image →
    (State.load cfg prog image).Inv

/-- Every step of any machine that satisfies the invariant keeps it: the canonical form of memory and its aligned keys, `mem_hi`
the largest key, `pc` a multiple of 4, the hardwired register, the fault record, the block labels (R13, R15, R19, R20, R31,
R91). -/
def Obligations.EveryStepKeepsInvariant : Prop :=
  ∀ s t : State, s.Inv → step s = .next t → t.Inv

/-- R44, R22. However many steps run, every later fetch returns what it returned before: stores are never seen by fetch. -/
def Obligations.NoStepChangesInstructions : Prop :=
  ∀ (n : Nat) (s t : State), Steps n s t →
    (∀ a, t.ifetch a = s.ifetch a) ∧ t.istore = s.istore ∧ t.cfg = s.cfg

/-- R69 (the historical input format). Words up to BREAK become the records at ENTRY_PC, ENTRY_PC + 4, ...; the words after it
become cells from DATA_BASE on, sign-extended; the loader's premises on the store then hold. That the FIRST BREAK word ends the
code is the model's reading (log 16). -/
def Obligations.HistoricalFormatLoads : Prop :=
  ∀ (cfg : Config) (code data : List InstrWord), cfg.entryPc % 4 = 0 →
    cfg.entryPc + 4 * (code.length + 1) ≤ 2 ^ 62 → 0xFEDEFFE7#32 ∉ code →
    StoreOk cfg (State.loadWords decode cfg (code ++ 0xFEDEFFE7#32 :: data)).istore ∧
    (State.loadWords decode cfg (code ++ 0xFEDEFFE7#32 :: data)).ninstr = code.length + 1 ∧
    (∀ k w, (code ++ [0xFEDEFFE7#32])[k]? = some w →
      (State.loadWords decode cfg (code ++ 0xFEDEFFE7#32 :: data)).ifetch (cfg.entryPc + 4 * k) =
        some (decode (cfg.entryPc + 4 * k) w)) ∧
    (∀ k w, data[k]? = some w →
      Memory.entry (State.loadWords decode cfg (code ++ 0xFEDEFFE7#32 :: data)).mem
        (cfg.entryPc + 4 * (code.length + 1) + 4 * k : Nat) = some (wrap64 w.toInt))

/-! ### Encoding -/

/-- Decoding the word of a well-formed instruction gives it back, every operand at every value of its domain (the layout of
30_encoding.md section 5; log 6). -/
def Obligations.DecodeInvertsEncode : Prop :=
  ∀ i : Instr, i.WellFormed → decodeInstr (encode i) = some i

/-- The other direction: what any word decodes to is well-formed, and encodes to the same word, but for the two bits of a
D-format word that are ignored (R65). -/
def Obligations.EncodeInvertsDecode : Prop :=
  ∀ (w : InstrWord) (i : Instr), decodeInstr w = some i → i.WellFormed ∧
    ((i.format ≠ .d → encode i = w) ∧ (i.format = .d → encode i = w &&& 0xFFFFF3FF#32))

/-- R62 to R69. A word stands for an instruction of a row exactly when `(w & mask) = match`; a word that matches none of the
nineteen patterns decodes to `Unsupported(w)`. -/
def Obligations.PatternsSelectInstructions : Prop :=
  ∀ w : InstrWord,
    ((∃ rd rn rm k, decodeInstr w = some (.and rd rn rm k)) ↔ w &&& 0xFFE00000#32 = 0x8A000000#32) ∧
    ((∃ rd rn rm k, decodeInstr w = some (.add rd rn rm k)) ↔ w &&& 0xFFE00000#32 = 0x8B000000#32) ∧
    ((∃ rd rn rm k, decodeInstr w = some (.orr rd rn rm k)) ↔ w &&& 0xFFE00000#32 = 0xAA000000#32) ∧
    ((∃ rd rn rm k, decodeInstr w = some (.eor rd rn rm k)) ↔ w &&& 0xFFE00000#32 = 0xEA000000#32) ∧
    ((∃ rd rn rm k, decodeInstr w = some (.sub rd rn rm k)) ↔ w &&& 0xFFE00000#32 = 0xCB000000#32) ∧
    ((∃ rd rn rm k, decodeInstr w = some (.asr rd rn rm k)) ↔ w &&& 0xFFE00000#32 = 0xD3800000#32) ∧
    ((∃ rd rn rm k, decodeInstr w = some (.lsr rd rn rm k)) ↔ w &&& 0xFFE00000#32 = 0xD3400000#32) ∧
    ((∃ rd rn rm k, decodeInstr w = some (.lsl rd rn rm k)) ↔ w &&& 0xFFE00000#32 = 0xD3600000#32) ∧
    ((∃ rd rn v, decodeInstr w = some (.addi rd rn v)) ↔ w &&& 0xFFC00000#32 = 0x91000000#32) ∧
    ((∃ rd rn v, decodeInstr w = some (.subi rd rn v)) ↔ w &&& 0xFFC00000#32 = 0xD1000000#32) ∧
    ((∃ rt rn v, decodeInstr w = some (.ldur rt rn v)) ↔ w &&& 0xFFE00000#32 = 0xF8400000#32) ∧
    ((∃ rt rn v, decodeInstr w = some (.stur rt rn v)) ↔ w &&& 0xFFE00000#32 = 0xF8000000#32) ∧
    ((∃ v, decodeInstr w = some (.b v)) ↔ w &&& 0xFC000000#32 = 0x14000000#32) ∧
    ((∃ rt v, decodeInstr w = some (.cbz rt v)) ↔ w &&& 0xFF000000#32 = 0xB4000000#32) ∧
    ((∃ rt v, decodeInstr w = some (.cbnz rt v)) ↔ w &&& 0xFF000000#32 = 0xB5000000#32) ∧
    ((∃ rd v k, decodeInstr w = some (.movz rd v k)) ↔ w &&& 0xFF800000#32 = 0xD2800000#32) ∧
    ((∃ rd v k, decodeInstr w = some (.movk rd v k)) ↔ w &&& 0xFF800000#32 = 0xF2800000#32) ∧
    (decodeInstr w = some .nop ↔ w = 0x00000000#32) ∧
    (decodeInstr w = some .brk ↔ w = 0xFEDEFFE7#32) ∧
    (decodeShape w = .unsupported w ↔ decodeInstr w = none)

/-- Words written out from the layouts of R63 to R69 decode to the instructions they stand for, one or two a format. -/
def Obligations.SpecWordsDecode : Prop :=
  decodeInstr 0b10001011000111110000100001000011#32 = some (.add 3 2 31 2) ∧
  decodeInstr 0b11010011100000101111110000100011#32 = some (.asr 3 1 2 63) ∧
  decodeInstr 0b10010001001111111110110001000001#32 = some (.addi 1 2 (-5)) ∧
  decodeInstr 0b11111000010111111111000010100110#32 = some (.ldur 6 5 (-1)) ∧
  decodeInstr 0b00010111111111111111111111111110#32 = some (.b (-2)) ∧
  decodeInstr 0b10110101111111111111111111000010#32 = some (.cbnz 2 (-2)) ∧
  decodeInstr 0b11110010111101010111100110100001#32 = some (.movk 1 43981 3) ∧
  decodeInstr 0b00000000000000000000000000000000#32 = some .nop ∧
  decodeInstr 0b11111110110111101111111111100111#32 = some .brk ∧
  decodeShape 0x9B000000#32 = .unsupported 0x9B000000#32

/-- R51 to R58, the operand fields: an instruction is well-formed exactly when every field of its format, used or not, is in
its domain. -/
def Obligations.WellFormedMeansInDomain : Prop :=
  ∀ i : Instr, i.WellFormed ↔ FieldsInDomain i

/-- The text the default decoder writes holds no line feed, as the trace's layout assumes (R186, D18). -/
def Obligations.DecodedTextHasNoLineFeed : Prop :=
  ∀ (a : Nat) (w : InstrWord), '\n' ∉ (decode a w).text

/-! ### Instructions -/

/-- R101, R103, R104: AND, ORR, EOR. -/
def Obligations.BitwiseOperations : Prop :=
  ROperation .and 0x8A000000 (fun a b _ => a &&& b) ∧
  ROperation .orr 0xAA000000 (fun a b _ => a ||| b) ∧
  ROperation .eor 0xEA000000 (fun a b _ => a ^^^ b)

/-- R102, R105: ADD and SUB are modulo 2^64, SUB first source minus second (D11). -/
def Obligations.AddAndSubWrap : Prop :=
  ROperation .add 0x8B000000 (fun a b _ => wrap64 ((a.toNat : Int) + b.toNat)) ∧
  ROperation .sub 0xCB000000 (fun a b _ => wrap64 ((a.toNat : Int) - b.toNat))

/-- R106, R107, R108: the shifts of `x[rn]` by the constant `shamt` over 64 bits; division rounds toward minus infinity. -/
def Obligations.ShiftsByConstant : Prop :=
  ROperation .asr 0xD3800000 (fun a _ k => wrap64 (a.toInt / 2 ^ k)) ∧
  ROperation .lsr 0xD3400000 (fun a _ k => wrap64 ((a.toNat : Int) / 2 ^ k)) ∧
  ROperation .lsl 0xD3600000 (fun a _ k => wrap64 ((a.toNat : Int) * 2 ^ k))

/-- R107's corner case: LSR and ASR of a register with bit 63 set differ for every shift amount that is not zero. -/
def Obligations.LsrDiffersFromAsrOnNegatives : Prop :=
  ∀ (s : State) (rd rn rm shamt : Nat), rd < 32 → rn < 32 → rm < 32 → 0 < shamt → shamt < 64 →
    ¬ (s.cfg.r31IsZero = true ∧ rd = 31) → (s.readReg rn).toInt < 0 →
    ∃ t u, exec (.lsr rd rn rm shamt) s = .next t ∧ exec (.asr rd rn rm shamt) s = .next u ∧
      0 ≤ (t.readReg rd).toInt ∧ (u.readReg rd).toInt < 0

/-- R121, R122: the immediate enters as its sign extension, the result is modulo 2^64. -/
def Obligations.ImmediateArithmetic : Prop :=
  IOperation .addi 0x91000000 (fun a imm => a + imm) ∧ IOperation .subi 0xD1000000 (fun a imm => a - imm)

/-- R131 (and R33): LDUR of every aligned effective address loads the cell, or zero where there is none, and changes neither
memory nor `mem_hi`; the effective address is `x[rn] + 4 * offset` modulo 2^64, read as a signed address. -/
def Obligations.LdurLoadsWholeCell : Prop :=
  (∀ (rt rn : Nat) (offset : Int), RaisesOutOfDomain (.ldur rt rn offset)) ∧
  ∀ (s : State) (rt rn : Nat) (offset : Int), rt < 32 → rn < 32 → -256 ≤ offset → offset ≤ 255 →
    s.effectiveAddress rn offset = wrap64 ((s.readReg rn).toNat + 4 * offset) ∧
    ((s.readReg rn).toNat % 4 = 0 → ∃ t, exec (.ldur rt rn offset) s = .next t ∧
      WritesOnly s t rt ((Memory.entry s.mem (s.effectiveAddress rn offset).toInt).getD 0)) ∧
    ((s.readReg rn).toNat % 4 ≠ 0 → exec (.ldur rt rn offset) s =
      .next (Raised s .misalignedDataAddress (.effectiveAddress (s.effectiveAddress rn offset)))) ∧
    decodeInstr (BitVec.ofNat 32 (0xF8400000 ||| (offset % 512).toNat <<< 12 ||| rn <<< 5 ||| rt)) =
      some (.ldur rt rn offset)

/-- R132 (and R34): STUR to every aligned effective address makes the entry there hold the whole of `x[rt]`, leaves every other
entry as it was, and raises `mem_hi` to the address when that is higher; no register changes. -/
def Obligations.SturStoresWholeRegister : Prop :=
  (∀ (rt rn : Nat) (offset : Int), RaisesOutOfDomain (.stur rt rn offset)) ∧
  ∀ (s : State) (rt rn : Nat) (offset : Int), rt < 32 → rn < 32 → -256 ≤ offset → offset ≤ 255 →
    s.effectiveAddress rn offset = wrap64 ((s.readReg rn).toNat + 4 * offset) ∧
    ((s.readReg rn).toNat % 4 = 0 → ∃ t, exec (.stur rt rn offset) s = .next t ∧
      t = { s with mem := t.mem, memHi := t.memHi, pc := s.pc + 4#64 } ∧
      (∀ a, Memory.entry t.mem a =
        if a = (s.effectiveAddress rn offset).toInt then some (s.readReg rt) else Memory.entry s.mem a) ∧
      (s.memHi = none → t.memHi = some (s.effectiveAddress rn offset).toInt) ∧
      (∀ hi, s.memHi = some hi → t.memHi = some (max hi (s.effectiveAddress rn offset).toInt))) ∧
    ((s.readReg rn).toNat % 4 ≠ 0 → exec (.stur rt rn offset) s =
      .next (Raised s .misalignedDataAddress (.effectiveAddress (s.effectiveAddress rn offset)))) ∧
    decodeInstr (BitVec.ofNat 32 (0xF8000000 ||| (offset % 512).toNat <<< 12 ||| rn <<< 5 ||| rt)) =
      some (.stur rt rn offset)

/-- R141: B goes to its own address plus `4 * offset`, modulo 2^64, and changes nothing else; the target is not checked. -/
def Obligations.BranchIsRelativeToItself : Prop :=
  (∀ offset : Int, RaisesOutOfDomain (.b offset)) ∧
  ∀ (s : State) (offset : Int), -33554432 ≤ offset → offset ≤ 33554431 →
    (∃ t, exec (.b offset) s = .next t ∧ t = { s with pc := t.pc } ∧
      (t.pc.toNat : Int) = (s.pc.toNat + 4 * offset) % 2 ^ 64) ∧
    decodeInstr (BitVec.ofNat 32 (0x14000000 ||| (offset % 67108864).toNat)) = some (.b offset)

/-- R142, R143: CBZ is taken iff all 64 bits of `x[rt]` are zero, CBNZ iff they are not. -/
def Obligations.ConditionalBranches : Prop :=
  CBOperation .cbz 0xB4000000 (fun v => v = 0) ∧ CBOperation .cbnz 0xB5000000 (fun v => v ≠ 0)

/-- R151: MOVZ writes the chunk and clears all other bits; the old value plays no part. -/
def Obligations.MovzClearsOtherChunks : Prop :=
  (∀ rd imm16 shift : Nat, RaisesOutOfDomain (.movz rd imm16 shift)) ∧
  ∀ (s : State) (rd imm16 shift : Nat), rd < 32 → imm16 < 65536 → shift < 4 →
    (∃ t, exec (.movz rd imm16 shift) s = .next t ∧
      WritesOnly s t rd (wrap64 ((imm16 : Int) * 2 ^ (16 * shift)))) ∧
    decodeInstr (BitVec.ofNat 32 (0xD2800000 ||| shift <<< 21 ||| imm16 <<< 5 ||| rd)) =
      some (.movz rd imm16 shift)

/-- R152: MOVK writes bits `16*shift .. 16*shift + 15` with the immediate and keeps every other bit of the register. -/
def Obligations.MovkKeepsOtherChunks : Prop :=
  (∀ rd imm16 shift : Nat, RaisesOutOfDomain (.movk rd imm16 shift)) ∧
  ∀ (s : State) (rd imm16 shift : Nat), rd < 32 → imm16 < 65536 → shift < 4 →
    (∃ t v, exec (.movk rd imm16 shift) s = .next t ∧ WritesOnly s t rd v ∧
      ∀ k < 64, v.getLsbD k =
        if 16 * shift ≤ k ∧ k < 16 * shift + 16 then imm16.testBit (k - 16 * shift)
        else (s.readReg rd).getLsbD k) ∧
    decodeInstr (BitVec.ofNat 32 (0xF2800000 ||| shift <<< 21 ||| imm16 <<< 5 ||| rd)) =
      some (.movk rd imm16 shift)

/-- R153, which the spec marks as derived: one MOVZ and three MOVK place any 64-bit constant in any register that is not
hardwired. -/
def Obligations.FourMovesBuildAnyConstant : Prop :=
  ∀ (s : State) (rd : Nat) (c : Word), rd < 32 → ¬ (s.cfg.r31IsZero = true ∧ rd = 31) →
    ∃ s1 s2 s3 s4,
      exec (.movz rd (c.toNat % 65536) 0) s = .next s1 ∧
      exec (.movk rd (c.toNat / 65536 % 65536) 1) s1 = .next s2 ∧
      exec (.movk rd (c.toNat / 4294967296 % 65536) 2) s2 = .next s3 ∧
      exec (.movk rd (c.toNat / 281474976710656) 3) s3 = .next s4 ∧
      s4.readReg rd = c ∧ s4.pc = s.pc + 16#64 ∧ s4.mem = s.mem

/-- R160: NOP changes `pc` alone; its step still counts and emits a block that shows registers and memory as they were. -/
def Obligations.NopOnlyAdvances : Prop :=
  ∀ s : State, exec .nop s = .next { s with pc := s.pc + 4#64 } ∧ decodeInstr 0x00000000#32 = some .nop ∧
    (s.run = .running → s.Fetches .nop → ∃ b,
      step s = .next { s with pc := s.pc + 4#64, cycle := s.cycle + 1, trace := s.trace ++ [b] } ∧
      b.cycle = s.cycle + 1 ∧ b.addr = s.pc.toNat ∧ (∀ i < 32, b.regs[i]? = some (s.readReg i)) ∧ b.rows = s.memDump)

/-- R161, R162: BREAK advances `pc` and halts, and changes nothing else; its step counts, emits a block labelled with the
BREAK's address that shows registers and memory as they were, and is the last. -/
def Obligations.BreakAdvancesAndHalts : Prop :=
  ∀ s : State, exec .brk s = .next { s with pc := s.pc + 4#64, run := .halted } ∧
    decodeInstr 0xFEDEFFE7#32 = some .brk ∧
    (s.run = .running → s.Fetches .brk → ∃ t b, step s = .next t ∧
      t = { s with pc := s.pc + 4#64, run := .halted, cycle := s.cycle + 1, trace := s.trace ++ [b] } ∧
      b.cycle = s.cycle + 1 ∧ b.addr = s.pc.toNat ∧ (∀ i < 32, b.regs[i]? = some (s.readReg i)) ∧
      b.rows = s.memDump ∧ step t = .fault .halted)

/-! ### Frames over all instructions -/

/-- R12's table, written registers: whatever instruction executes, well-formed or not, every register but its destination reads
and stands as before. -/
def Obligations.OnlyDestinationRegisterChanges : Prop :=
  ∀ (i : Instr) (s t : State) (j : Nat), exec i s = .next t → destination i ≠ some j →
    t.readReg j = s.readReg j ∧ t.x[j]? = s.x[j]?

/-- R12's table, read registers: two states that differ only in registers outside an instruction's sources are taken by it to
states with the same `pc`, memory and run state and the same value in the destination register. -/
def Obligations.OnlySourceRegistersMatter : Prop :=
  ∀ (i : Instr) (s : State) (y : Vector Word 32) (t u : State),
    (∀ j ∈ sources i, State.readReg { s with x := y } j = s.readReg j) →
    exec i s = .next t → exec i { s with x := y } = .next u →
    { u with x := t.x } = t ∧ ∀ j, destination i = some j → j < 32 → i.WellFormed → t.run ≠ .faulted →
      u.readReg j = t.readReg j

/-- R21, R33, R34: whatever instruction executes, every cell but the one a STUR stores to is as before, and `mem_hi` changes by
a STUR alone; no entry is ever removed. -/
def Obligations.OnlyStoredCellChanges : Prop :=
  ∀ (i : Instr) (s t : State), exec i s = .next t →
    (∀ a, storeAddress s i ≠ some a → Memory.entry t.mem a = Memory.entry s.mem a) ∧
    (storeAddress s i = none → t.mem = s.mem ∧ t.memHi = s.memHi) ∧
    (∀ a, (Memory.entry s.mem a).isSome = true → (Memory.entry t.mem a).isSome = true)

/-- R10, R17, R18, R22, R25: no instruction's execution touches the cycle counter, the trace, the store or the parameters, and
only BREAK and the fatal conditions move the run state. -/
def Obligations.InstructionsLeaveEngineRegisters : Prop :=
  ∀ (i : Instr) (s t : State), exec i s = .next t →
    t.cycle = s.cycle ∧ t.trace = s.trace ∧ t.istore = s.istore ∧ t.cfg = s.cfg ∧
    (t.run = s.run ∧ t.fault = s.fault ∨ i = .brk ∧ t.run = .halted ∧ t.fault = s.fault ∨
      t.run = .faulted ∧ t.fault.isSome = true ∧ t.x = s.x ∧ t.mem = s.mem ∧ t.memHi = s.memHi ∧ t.pc = s.pc)

/-- R84, R15: an executed instruction that is no branch moves `pc` by 4; a branch by 4 or by `4 * offset` with its offset. -/
def Obligations.PcAdvancesByFourOrBranches : Prop :=
  ∀ (i : Instr) (s t : State), i.WellFormed → exec i s = .next t → t.run ≠ .faulted →
    (i.format ≠ .b → i.format ≠ .cb → t.pc = s.pc + 4#64) ∧
    (∀ offset, i = .b offset → t.pc = s.pc + wrap64 (4 * offset)) ∧
    (∀ rt offset, i = .cbz rt offset ∨ i = .cbnz rt offset →
      t.pc = s.pc + 4#64 ∨ t.pc = s.pc + wrap64 (4 * offset))

/-- R15's last sentence, which the spec marks as derived: under the loader's premises no step goes from a valid
instruction address to another by wrapping. -/
def Obligations.PcDoesNotWrapIntoStore : Prop :=
  ∀ (s t : State) (r q : Record), StoreOk s.cfg s.istore → s.ifetch s.pc.toNat = some r →
    step s = .next t → t.run ≠ .faulted → t.ifetch t.pc.toNat = some q →
    ∃ d : Int, -134217728 ≤ d ∧ d ≤ 134217724 ∧ d % 4 = 0 ∧ (t.pc.toNat : Int) = s.pc.toNat + d

/-! ### Registers and memory -/

/-- R13: with `R31_IS_ZERO` false register 31 is an ordinary register; with true it reads zero, a write to it is discarded, and
its stored value stays zero. -/
def Obligations.Register31FollowsParameter : Prop :=
  (∀ (s : State) (i j : Nat) (v : Word), s.cfg.r31IsZero = false → i < 32 → j < 32 →
    (s.writeReg i v).readReg j = if j = i then v else s.readReg j) ∧
  (∀ (s : State) (i j : Nat) (v : Word), s.cfg.r31IsZero = true → i < 32 → j < 32 →
    s.readReg 31 = 0 ∧ s.writeReg 31 v = s ∧
    (i ≠ 31 → (s.writeReg i v).readReg j = if j = i then v else s.readReg j)) ∧
  (∀ s t : State, s.cfg.r31IsZero = true → s.x[31] = 0 → step s = .next t → t.x[31] = 0)

/-- R34, R33: a write creates or overwrites one entry and moves `mem_hi` up to it, a write of zero too; a read gives the entry
or zero. -/
def Obligations.MemoryWriteThenRead : Prop :=
  ∀ (s : State) (ea b v : Word),
    Memory.entry (s.memWrite ea v).mem ea.toInt = some v ∧ (s.memWrite ea v).memRead ea = v ∧
    (b ≠ ea → Memory.entry (s.memWrite ea v).mem b.toInt = Memory.entry s.mem b.toInt ∧
      (s.memWrite ea v).memRead b = s.memRead b) ∧
    ((s.memHi = none ∨ ∃ hi, s.memHi = some hi ∧ ea.toInt > hi) → (s.memWrite ea v).memHi = some ea.toInt) ∧
    (∀ hi, s.memHi = some hi → ea.toInt ≤ hi → (s.memWrite ea v).memHi = some hi) ∧
    (Memory.entry s.mem b.toInt = none → s.memRead b = 0) ∧
    (∀ w, Memory.entry s.mem b.toInt = some w → s.memRead b = w)

/-- R20, R21: over a step `mem_hi` never decreases and never returns to none, and no entry disappears. -/
def Obligations.MemHiNeverDecreases : Prop :=
  ∀ (s t : State) (hi : Int), step s = .next t → s.memHi = some hi →
    (∃ hi', t.memHi = some hi' ∧ hi ≤ hi') ∧
    ∀ a, (Memory.entry s.mem a).isSome = true → (Memory.entry t.mem a).isSome = true

/-- R42: memory order is program order. A STUR's step leaves its register's value in the cell; over any number of steps none of
which stores to an address, the cell there (or its absence) stays. -/
def Obligations.MemoryOrderIsProgramOrder : Prop :=
  (∀ (s t : State) (rt rn : Nat) (offset : Int), s.Fetches (.stur rt rn offset) → step s = .next t →
    t.run ≠ .faulted →
    Memory.entry t.mem (s.effectiveAddress rn offset).toInt = some (s.readReg rt)) ∧
  (∀ (n : Nat) (s t : State) (a : Int), Steps n s t →
    (∀ k < n, ∀ u, Steps k s u → ¬ u.StoresTo a) → Memory.entry t.mem a = Memory.entry s.mem a)

/-- R133, which the spec marks as derived: a STUR, any number of steps that store nothing to the same address, then an LDUR of
that address: it loads exactly the 64 bits the stored register held. -/
def Obligations.StoreThenLoadReturnsValue : Prop :=
  ∀ (n : Nat) (s s' t t' : State) (rs rb rd rc : Nat) (j k : Int),
    s.Fetches (.stur rs rb j) → step s = .next s' → s'.run ≠ .faulted → Steps n s' t →
    (∀ m < n, ∀ u, Steps m s' u → ¬ u.StoresTo (s.effectiveAddress rb j).toInt) →
    t.Fetches (.ldur rd rc k) → t.effectiveAddress rc k = s.effectiveAddress rb j →
    ¬ (t.cfg.r31IsZero = true ∧ rd = 31) → step t = .next t' → t'.run ≠ .faulted →
    t'.readReg rd = s.readReg rs

/-! ### The engine -/

/-- R81, R86 and the placing of a word (log 5): when the record at the program counter is the decoded word of an instruction, a step of
a running machine is `exec` of that instruction, followed (unless it raised a fatal condition) by the cycle increment and one
block labelled with the new cycle and the instruction's address and text. -/
def Obligations.StepRunsDecodedInstruction : Prop :=
  (∀ (s : State) (w : InstrWord) (i : Instr), s.run = .running →
    s.ifetch s.pc.toNat = some (decode s.pc.toNat w) → decodeInstr w = some i →
    ∃ t, exec i s = .next t ∧
      (t.run = .faulted → step s = .next t) ∧
      (t.run ≠ .faulted → ∃ b, step s = .next { t with cycle := t.cycle + 1, trace := t.trace ++ [b] } ∧
        b.cycle = t.cycle + 1 ∧ b.addr = s.pc.toNat ∧ b.text = i.text)) ∧
  (∀ (s : State) (nbits w : Nat),
    (s.withFetchWord nbits w).ifetch (s.withFetchWord nbits w).pc.toNat =
      some (decode (s.withFetchWord nbits w).pc.toNat (BitVec.ofNat 32 (w % 2 ^ nbits))))

/-- R81: a step exists exactly when `run = running`; a running machine is never stuck and never refused. -/
def Obligations.StepExistsIffRunning : Prop :=
  ∀ s : State, ((∃ t, step s = .next t) ↔ s.run = .running) ∧
    (s.run = .halted → step s = .fault .halted) ∧ (s.run = .faulted → step s = .fault .faulted)

/-- R18, R162: from running a step goes to halted exactly by a BREAK, to faulted exactly with a fault record written, else it
stays running. -/
def Obligations.RunStateTransitions : Prop :=
  ∀ s t : State, s.fault = none → step s = .next t → s.run = .running ∧
    (t.run = .halted ↔ s.Fetches .brk) ∧ (t.run = .faulted ↔ t.fault.isSome = true)

/-- R85, R86, R171, R172: a step that executed an instruction adds 1 to `cycle` and appends exactly one block, which shows the
state it left under the executed record's address and text; a step that raised a condition does neither. -/
def Obligations.ExecutedStepEmitsOneBlock : Prop :=
  ∀ s t : State, step s = .next t →
    (t.run ≠ .faulted → t.cycle = s.cycle + 1 ∧ ∃ r b, s.ifetch s.pc.toNat = some r ∧ r.addr = s.pc.toNat ∧
      t.trace = s.trace ++ [b] ∧ BlockShows b t r) ∧
    (t.run = .faulted → t.cycle = s.cycle ∧ t.trace = s.trace)

/-- R91: after `n` steps of a loaded machine that raised no condition, `cycle = n` and the trace holds `n` blocks labelled
1 to `n` in that order; a run that ended in a condition has one block fewer than steps. -/
def Obligations.CycleCountsStepsOfRun : Prop :=
  ∀ (cfg : Config) (prog : Store) (image : Memory) (n : Nat) (t : State),
    Steps n (State.load cfg prog image) t →
    (t.run ≠ .faulted → t.cycle = n ∧ t.trace.map Snapshot.cycle = (List.range n).map (· + 1)) ∧
    (t.run = .faulted → t.cycle + 1 = n ∧ t.trace.length + 1 = n)

/-- R223, R87, R185: a loaded machine that has halted executed a BREAK last: its last block is the BREAK's, labelled `n` with the
BREAK's address and text, shows the final registers and memory, `pc` is that address plus 4, and no further step exists. -/
def Obligations.HaltedRunEndsWithBreakBlock : Prop :=
  ∀ (cfg : Config) (prog : Store) (image : Memory) (n : Nat) (t : State),
    Steps n (State.load cfg prog image) t → t.run = .halted →
    t.fault = none ∧ t.cycle = n ∧ t.trace.length = n ∧ step t = .fault .halted ∧
    ∃ r b a, Store.lookup prog a = some r ∧ r.shape = .instr .brk ∧ r.addr = a ∧
      t.trace.getLast? = some b ∧ BlockShows b t r ∧ t.pc = BitVec.ofNat 64 a + 4#64

/-- R88: `B #0` steps for ever: for every `n` there is a state after `n` steps, still running at the same address with `n` more
blocks, registers and memory unchanged. -/
def Obligations.BranchToSelfRunsForever : Prop :=
  ∀ (s : State), s.run = .running → s.Fetches (.b 0) → ∀ n, ∃ t, Steps n s t ∧ t.run = .running ∧
    t.pc = s.pc ∧ t.x = s.x ∧ t.mem = s.mem ∧ t.cycle = s.cycle + n ∧ t.trace.length = s.trace.length + n

/-- R72, R205: the text of records and the trace emitted so far never influence execution. Machines that agree but for them
still do after any number of steps. -/
def Obligations.TextNeverInfluencesExecution : Prop :=
  ∀ (n : Nat) (s t s' : State), AgreeButForText s s' → Steps n s t →
    ∃ t', Steps n s' t' ∧ AgreeButForText t t'

/-! ### Fatal conditions -/

/-- R191, R82: a running machine whose `pc` has no entry faults, naming that `pc`; nothing else changes, no step follows, and the
exit status is not zero. -/
def Obligations.FetchOutsideStoreFaults : Prop :=
  ∀ s : State, s.run = .running → s.ifetch s.pc.toNat = none →
    step s = .next (Raised s .instructionFetchOutOfRange (.address s.pc.toNat)) ∧
    step (Raised s .instructionFetchOutOfRange (.address s.pc.toNat)) = .fault .faulted ∧
    (Raised s .instructionFetchOutOfRange (.address s.pc.toNat)).exitStatus = some 1

/-- R192: an unsupported record faults when it is executed, whatever its address field, and is never a silent no-op; the load
of any records leaves the machine running, and the condition is reported only when the record at `pc` is unsupported. -/
def Obligations.UnsupportedRecordFaults : Prop :=
  (∀ (s : State) (r : Record) (w : InstrWord), s.run = .running → s.ifetch s.pc.toNat = some r →
    r.shape = .unsupported w →
    step s = .next (Raised s .unsupportedInstruction (.unsupported r.addr w))) ∧
  (∀ (cfg : Config) (prog : Store) (image : Memory), (State.load cfg prog image).run = .running) ∧
  (∀ (s t : State) (f : FaultRecord), s.fault = none → step s = .next t → t.fault = some f →
    f.cause = .unsupportedInstruction → ∃ r w, s.ifetch s.pc.toNat = some r ∧ r.shape = .unsupported w)

/-- R193: a record with an operand field outside its domain, or with an `addr` other than its key, faults; an instruction
executed with such a field does nothing else. -/
def Obligations.MalformedRecordFaults : Prop :=
  (∀ (s : State) (r : Record) (i : Instr), s.run = .running → s.ifetch s.pc.toNat = some r →
    r.shape = .instr i → (r.addr ≠ s.pc.toNat ∨ ¬ i.WellFormed) →
    step s = .next (Raised s .malformedOperand (.address r.addr))) ∧
  (∀ (s : State) (i : Instr), ¬ i.WellFormed →
    exec i s = .next (Raised s .malformedOperand (.address s.pc.toNat)))

/-- R194, R35: LDUR and STUR with a base that is not a multiple of 4 end the step in MisalignedDataAddress with the effective
address, and change nothing else; no other instruction raises it. -/
def Obligations.MisalignedAccessFaults : Prop :=
  (∀ (s : State) (i : Instr) (rt rn : Nat) (offset : Int), i = .ldur rt rn offset ∨ i = .stur rt rn offset →
    s.run = .running → s.Fetches i → i.WellFormed → (s.readReg rn).toNat % 4 ≠ 0 →
    step s = .next (Raised s .misalignedDataAddress (.effectiveAddress (s.effectiveAddress rn offset)))) ∧
  (∀ (s t : State) (f : FaultRecord), s.fault = none → step s = .next t → t.fault = some f →
    f.cause = .misalignedDataAddress →
    ∃ rt rn offset, s.Fetches (.ldur rt rn offset) ∨ s.Fetches (.stur rt rn offset))

/-- R195: whatever condition a step raises, nothing is kept of the step but the fault record, which names the `pc` it began
with, and the run state; no step follows. -/
def Obligations.FatalConditionsArePrecise : Prop :=
  ∀ s t : State, step s = .next t → t.run = .faulted →
    (∃ cause info, t = Raised s cause info) ∧ step t = .fault .faulted

/-- R197: the checks go in the order fetch, unsupported, malformed, misaligned, and the first that fails is reported: a missing
record; an unsupported one, whatever its address field; a wrong address field or a field outside its domain, whatever the
instruction and its effective address; a misaligned effective address when nothing before it failed. -/
def Obligations.FirstFailingCheckIsReported : Prop :=
  (∀ s t : State, s.ifetch s.pc.toNat = none → step s = .next t →
    ∃ f, t.fault = some f ∧ f.cause = .instructionFetchOutOfRange) ∧
  (∀ (s t : State) (r : Record) (w : InstrWord), s.ifetch s.pc.toNat = some r → r.shape = .unsupported w →
    step s = .next t → ∃ f, t.fault = some f ∧ f.cause = .unsupportedInstruction) ∧
  (∀ (s t : State) (r : Record) (i : Instr), s.ifetch s.pc.toNat = some r → r.shape = .instr i →
    (r.addr ≠ s.pc.toNat ∨ ¬ i.WellFormed) → step s = .next t →
    ∃ f, t.fault = some f ∧ f.cause = .malformedOperand) ∧
  (∀ (s t : State) (i : Instr) (rt rn : Nat) (offset : Int), i = .ldur rt rn offset ∨ i = .stur rt rn offset →
    s.Fetches i → i.WellFormed → aligned (s.effectiveAddress rn offset) = false → step s = .next t →
    ∃ f, t.fault = some f ∧ f.cause = .misalignedDataAddress)

/-- R196, R204: the cause codes 1 to 4, and the exit status 0 on halted, 1 on faulted. That a running machine has none is the
model's choice (log 14): R204 does not speak of it. -/
def Obligations.CodesAndExitStatus : Prop :=
  Cause.instructionFetchOutOfRange.code = 1 ∧ Cause.unsupportedInstruction.code = 2 ∧
  Cause.malformedOperand.code = 3 ∧ Cause.misalignedDataAddress.code = 4 ∧
  ∀ s : State, (s.run = .halted → s.exitStatus = some 0) ∧ (s.run = .faulted → s.exitStatus = some 1) ∧
    (s.run = .running → s.exitStatus = none)

/-! ### The trace -/

/-- R175, R174, R182: the memory dump has the rows of eight that cover DATA_BASE through `mem_hi`, each with its label, every
value what a read of its address gives, the padding above `mem_hi` too (R175 marks that as derived); it is empty when `mem_hi`
is none or below DATA_BASE. -/
def Obligations.MemoryDumpCoversDataRegion : Prop :=
  ∀ s : State, s.Inv → s.cfg.entryPc % 4 = 0 →
    (∀ hi, s.memHi = some hi → (s.dataBase : Int) ≤ hi →
      32 * (s.memDump.length : Int) - 32 ≤ hi - s.dataBase ∧ hi - s.dataBase < 32 * s.memDump.length) ∧
    (∀ r < s.memDump.length, ∃ row, s.memDump[r]? = some row ∧ row.label = s.dataBase + 32 * r ∧
      ∀ j < 8, row.values[j]? = some (Memory.read s.mem ((s.dataBase + 32 * r + 4 * j : Nat) : Int))) ∧
    (s.memHi = none ∨ (∃ hi, s.memHi = some hi ∧ hi < s.dataBase) → s.memDump = [])

/-- R176: `dec` gives the digits of the number with no leading zero, `sdec` the signed value with a leading minus sign when
negative. -/
def Obligations.NumeralsAreDecimal : Prop :=
  (∀ n : Nat, numeralValue (dec n) = n ∧ (∀ c ∈ dec n, '0' ≤ c ∧ c ≤ '9') ∧ dec n ≠ [] ∧
    ((dec n).head? = some '0' → n = 0) ∧ (n = 0 → dec n = ['0'])) ∧
  (∀ v : Word, (0 ≤ v.toInt → sdec v = dec v.toNat) ∧
    (v.toInt < 0 → sdec v = '-' :: dec (2 ^ 64 - v.toNat)))

/-- R177 to R182: the lines of a block whose text holds no line feed: separator, header, a blank line, four register rows, a
blank line, the memory rows, a blank line, and nothing after its line feed; so it has 9 lines and one for each memory row. The
count is the model's reading of R178 (log 22): its template and its list of lines give `9 + nrows`, its sentence says
`8 + nrows`. -/
def Obligations.BlockTextHasSpecLines : Prop :=
  ∀ b : Snapshot, '\n' ∉ b.text →
    b.blockText.splitOn '\n' =
      [List.replicate 20 '=',
        ['c', 'y', 'c', 'l', 'e', ':'] ++ dec b.cycle ++ '\t' :: dec b.addr ++ '\t' :: b.text,
        [], registerLine b ['0', '0'] 0, registerLine b ['0', '8'] 1, registerLine b ['1', '6'] 2,
        registerLine b ['2', '4'] 3, []] ++
      b.rows.map (fun r => dec r.label ++ ':' :: tabbed r.values.toList) ++ [[], []] ∧
    b.blockText.count '\n' = 9 + b.rows.length

/-- R183: a step that executed an instruction appends the text of exactly one whole block, its last, to what the host reads; any
other step appends nothing. -/
def Obligations.TraceTextGrowsByWholeBlocks : Prop :=
  ∀ s t : State, step s = .next t →
    (t.run ≠ .faulted → ∃ b, t.trace.getLast? = some b ∧ t.traceText = s.traceText ++ b.blockText) ∧
    (t.run = .faulted → t.traceText = s.traceText)
end

