-- ==== Sys2Proof/Laws/WellFormed.lean ====
section
/-! SUPPORT. Well-formedness as ranges (30_encoding.md R51 to R58): one lemma per check and one per constructor, so that no
proof unfolds the checks. -/

namespace Sys2Proof

@[simp] theorem regOk_iff (i : Nat) : regOk i = true ↔ i < 32 := decide_eq_true_iff

@[simp] theorem shamtOk_iff (k : Int) : shamtOk k = true ↔ 0 ≤ k ∧ k ≤ 63 := by
  simp [shamtOk]

@[simp] theorem immOk_iff (v : Int) : signedOk 12 v = true ↔ -2048 ≤ v ∧ v ≤ 2047 := by
  simp [signedOk]; omega

@[simp] theorem doffOk_iff (v : Int) : signedOk 9 v = true ↔ -256 ≤ v ∧ v ≤ 255 := by
  simp [signedOk]; omega

@[simp] theorem boffOk_iff (v : Int) : signedOk 26 v = true ↔ -33554432 ≤ v ∧ v ≤ 33554431 := by
  simp [signedOk]; omega

@[simp] theorem cboffOk_iff (v : Int) : signedOk 19 v = true ↔ -262144 ≤ v ∧ v ≤ 262143 := by
  simp [signedOk]; omega

@[simp] theorem imm16Ok_iff (v : Nat) : imm16Ok v = true ↔ v < 65536 := decide_eq_true_iff

@[simp] theorem chunkOk_iff (k : Nat) : chunkOk k = true ↔ k < 4 := decide_eq_true_iff

theorem rOperandsOk_iff (rd rn rm : Nat) (shamt : Int) :
    rOperandsOk rd rn rm shamt = true ↔ rd < 32 ∧ rn < 32 ∧ rm < 32 ∧ 0 ≤ shamt ∧ shamt ≤ 63 := by
  simp [rOperandsOk, and_assoc]

theorem iOperandsOk_iff (rd rn : Nat) (imm : Int) :
    iOperandsOk rd rn imm = true ↔ rd < 32 ∧ rn < 32 ∧ -2048 ≤ imm ∧ imm ≤ 2047 := by
  simp [iOperandsOk, and_assoc]

theorem dOperandsOk_iff (rt rn : Nat) (offset : Int) :
    dOperandsOk rt rn offset = true ↔ rt < 32 ∧ rn < 32 ∧ -256 ≤ offset ∧ offset ≤ 255 := by
  simp [dOperandsOk, and_assoc]

theorem cbOperandsOk_iff (rt : Nat) (offset : Int) :
    cbOperandsOk rt offset = true ↔ rt < 32 ∧ -262144 ≤ offset ∧ offset ≤ 262143 := by
  simp [cbOperandsOk]

theorem imOperandsOk_iff (rd imm16 shift : Nat) :
    imOperandsOk rd imm16 shift = true ↔ rd < 32 ∧ imm16 < 65536 ∧ shift < 4 := by
  simp [imOperandsOk, and_assoc]

/-- A CB offset is in the range of a B offset (R54, R55). -/
theorem boff_of_cboff {v : Int} (h : signedOk Config.cboffBits v = true) :
    signedOk Config.boffBits v = true := by
  rw [cboffOk_iff] at h; rw [boffOk_iff]; omega

end Sys2Proof
end

