-- ==== Sys2Proof/Laws/Decode.lean ====
section
/-! SUPPORT. Bit fields as quotients and remainders, the opcode map as a whole, and what the encoders put where
(30_encoding.md R62 to R68). -/

namespace Sys2Proof

/-- An unsigned field is a quotient and a remainder of the word's value (R6). -/
theorem ufield_eq (w : InstrWord) (hi lo : Nat) : ufield w hi lo = w.toNat / 2 ^ lo % 2 ^ (hi - lo + 1) := by
  simp [ufield, BitVec.extractLsb, BitVec.extractLsb', Nat.shiftRight_eq_div_pow]

/-- A signed field is the unsigned one, less `2^n` when its top bit is set (R6). -/
theorem sfield_eq (w : InstrWord) (hi lo : Nat) :
    sfield w hi lo = if 2 * ufield w hi lo < 2 ^ (hi - lo + 1) then (ufield w hi lo : Int)
      else ufield w hi lo - (2 ^ (hi - lo + 1) : Nat) := by
  rw [sfield, ufield, BitVec.toInt_eq_toNat_cond]

theorem fits_iff (r : OpcodeRow) (w : InstrWord) :
    r.fits w = true ↔ w.toNat / 2 ^ r.lo % 2 ^ (r.hi - r.lo + 1) = r.opcode := by
  rw [OpcodeRow.fits, beq_iff_eq, ufield_eq]

/-! ### The opcode map (30_encoding.md R62) -/

/-- The instruction found belongs to a row that fits. -/
theorem firstFit_mem : ∀ {rs : List OpcodeRow} {w : InstrWord} {i : Instr}, firstFit rs w = some i →
    ∃ r ∈ rs, r.fits w = true ∧ r.build w = i
  | [], _, _, h => by cases h
  | r :: rs, w, i, h => by
    unfold firstFit at h
    split at h
    · next hf => exact ⟨r, List.mem_cons_self, hf, by simpa using h⟩
    · obtain ⟨q, hq, hfit⟩ := firstFit_mem h
      exact ⟨q, List.mem_cons_of_mem _ hq, hfit⟩

/-- A row that fits is the one found when no other row fits. -/
theorem firstFit_of : ∀ {rs : List OpcodeRow} {w : InstrWord} {r : OpcodeRow},
    (∀ q ∈ rs, q.fits w = true → q = r) → r ∈ rs → r.fits w = true → firstFit rs w = some (r.build w)
  | [], _, _, _, h, _ => by cases h
  | q :: rs, w, r, hd, hm, hf => by
    unfold firstFit
    split
    · next hq => rw [hd q List.mem_cons_self hq]
    · next hq =>
      rcases List.mem_cons.1 hm with rfl | hm
      · exact absurd hf hq
      · exact firstFit_of (fun q hq => hd q (List.mem_cons_of_mem _ hq)) hm hf

/-- Two rows overlap when some word could carry both opcodes: they agree on the bits above the higher of their two ends. -/
def OpcodeRow.overlaps (r q : OpcodeRow) : Bool :=
  if r.lo ≤ q.lo then r.opcode / 2 ^ (q.lo - r.lo) == q.opcode else q.opcode / 2 ^ (r.lo - q.lo) == r.opcode

/-- The patterns are pairwise disjoint (R62): no two of the nineteen rows overlap. -/
theorem opcodeRows_disjoint : opcodeRows.Pairwise fun r q => r.overlaps q = false := by
  decide

theorem opcodeRows_hi : ∀ r ∈ opcodeRows, r.hi = 31 ∧ r.lo ≤ 31 := by
  decide

/-- Rows that both fit one word overlap. -/
theorem overlaps_of_fits {r q : OpcodeRow} {w : InstrWord} (hr : r.hi = 31 ∧ r.lo ≤ 31) (hq : q.hi = 31 ∧ q.lo ≤ 31)
    (h1 : r.fits w = true) (h2 : q.fits w = true) : r.overlaps q = true := by
  have top : ∀ {p : OpcodeRow}, p.hi = 31 ∧ p.lo ≤ 31 → p.fits w = true → w.toNat / 2 ^ p.lo = p.opcode := by
    intro p hp h
    rw [fits_iff, hp.1, Nat.mod_eq_of_lt] at h
    · exact h
    · rw [Nat.div_lt_iff_lt_mul (by positivity), ← pow_add]
      have : 31 - p.lo + 1 + p.lo = 32 := by omega
      rw [this]; exact w.isLt
  have e1 := top hr h1
  have e2 := top hq h2
  unfold OpcodeRow.overlaps
  split
  · next hle => rw [beq_iff_eq, ← e1, ← e2, Nat.div_div_eq_div_mul, ← pow_add, Nat.add_sub_cancel' hle]
  · next hle =>
    rw [beq_iff_eq, ← e1, ← e2, Nat.div_div_eq_div_mul, ← pow_add, Nat.add_sub_cancel' (by omega)]

theorem overlaps_comm (r q : OpcodeRow) : r.overlaps q = q.overlaps r := by
  unfold OpcodeRow.overlaps
  rcases lt_trichotomy r.lo q.lo with h | h | h
  · rw [if_pos h.le, if_neg (by omega)]
  · simp only [h, le_refl, if_true, Nat.sub_self, pow_zero, Nat.div_one]; exact Bool.beq_comm
  · rw [if_neg (by omega), if_pos h.le]

/-- At most one row fits a word (R62). -/
theorem row_unique {r q : OpcodeRow} {w : InstrWord} (hr : r ∈ opcodeRows) (hq : q ∈ opcodeRows)
    (h1 : r.fits w = true) (h2 : q.fits w = true) : r = q := by
  have ho := overlaps_of_fits (opcodeRows_hi r hr) (opcodeRows_hi q hq) h1 h2
  obtain ⟨m, hm, rfl⟩ := List.mem_iff_getElem.1 hr
  obtain ⟨n, hn, rfl⟩ := List.mem_iff_getElem.1 hq
  have hp := List.pairwise_iff_getElem.1 opcodeRows_disjoint
  rcases lt_trichotomy m n with h | h | h
  · rw [hp m n hm hn h] at ho; cases ho
  · subst h; rfl
  · rw [overlaps_comm, hp n m hn hm h] at ho; cases ho

/-- A row of the map that fits a word is the one the word decodes by. -/
theorem decodeInstr_of_fits {r : OpcodeRow} {w : InstrWord} (hr : r ∈ opcodeRows) (hf : r.fits w = true) :
    decodeInstr w = some (r.build w) :=
  firstFit_of (fun _ hq h => row_unique hq hr h hf) hr hf

/-- A decoded instruction comes from a row of the map that fits the word. -/
theorem row_of_decodeInstr {w : InstrWord} {i : Instr} (h : decodeInstr w = some i) :
    ∃ r ∈ opcodeRows, r.fits w = true ∧ r.build w = i := firstFit_mem h

/-! ### The encoders -/

/-- An R-format word carries its opcode and reads back its fields. -/
theorem encodeR_reads {op : Nat → Nat → Nat → Int → Instr} {k rd rn rm : Nat} {shamt : Int} (hk : k < 2048)
    (h : rOperandsOk rd rn rm shamt = true) :
    ufield (encodeR (k * 2097152) rd rn rm shamt) 31 21 = k ∧
      decodeR op (encodeR (k * 2097152) rd rn rm shamt) = op rd rn rm shamt := by
  rw [rOperandsOk_iff] at h
  have hn : (encodeR (k * 2097152) rd rn rm shamt).toNat =
      k * 2097152 + rm * 65536 + shamt.toNat * 1024 + rn * 32 + rd := by
    simp only [encodeR, BitVec.toNat_ofNat]; omega
  refine ⟨by rw [ufield_eq, hn]; omega, ?_⟩
  unfold decodeR
  simp only [ufield_eq, hn]
  congr 1 <;> omega

/-- An I-format word carries its opcode and reads back its fields. -/
theorem encodeI_reads {op : Nat → Nat → Int → Instr} {k rd rn : Nat} {imm : Int} (hk : k < 1024)
    (h : iOperandsOk rd rn imm = true) :
    ufield (encodeI (k * 4194304) rd rn imm) 31 22 = k ∧
      decodeI op (encodeI (k * 4194304) rd rn imm) = op rd rn imm := by
  rw [iOperandsOk_iff] at h
  have hn : (encodeI (k * 4194304) rd rn imm).toNat =
      k * 4194304 + (imm % 4096).toNat * 1024 + rn * 32 + rd := by
    simp only [encodeI, BitVec.toNat_ofNat]; omega
  refine ⟨by rw [ufield_eq, hn]; omega, ?_⟩
  unfold decodeI
  simp only [sfield_eq, ufield_eq, hn]
  congr 1
  · omega
  · omega
  · split <;> omega

/-- A D-format word carries its opcode and reads back its fields. -/
theorem encodeD_reads {op : Nat → Nat → Int → Instr} {k rt rn : Nat} {offset : Int} (hk : k < 2048)
    (h : dOperandsOk rt rn offset = true) :
    ufield (encodeD (k * 2097152) rt rn offset) 31 21 = k ∧
      decodeD op (encodeD (k * 2097152) rt rn offset) = op rt rn offset := by
  rw [dOperandsOk_iff] at h
  have hn : (encodeD (k * 2097152) rt rn offset).toNat =
      k * 2097152 + (offset % 512).toNat * 4096 + rn * 32 + rt := by
    simp only [encodeD, BitVec.toNat_ofNat]; omega
  refine ⟨by rw [ufield_eq, hn]; omega, ?_⟩
  unfold decodeD
  simp only [sfield_eq, ufield_eq, hn]
  congr 1
  · omega
  · omega
  · split <;> omega

/-- A CB-format word carries its opcode and reads back its fields. -/
theorem encodeCB_reads {op : Nat → Int → Instr} {k rt : Nat} {offset : Int} (hk : k < 256)
    (h : cbOperandsOk rt offset = true) :
    ufield (encodeCB (k * 16777216) rt offset) 31 24 = k ∧
      decodeCB op (encodeCB (k * 16777216) rt offset) = op rt offset := by
  rw [cbOperandsOk_iff] at h
  have hn : (encodeCB (k * 16777216) rt offset).toNat =
      k * 16777216 + (offset % 524288).toNat * 32 + rt := by
    simp only [encodeCB, BitVec.toNat_ofNat]; omega
  refine ⟨by rw [ufield_eq, hn]; omega, ?_⟩
  unfold decodeCB
  simp only [sfield_eq, ufield_eq, hn]
  congr 1
  · omega
  · split <;> omega

/-- An IM-format word carries its opcode and reads back its fields. -/
theorem encodeIM_reads {op : Nat → Nat → Nat → Instr} {k rd imm16 shift : Nat} (hk : k < 512)
    (h : imOperandsOk rd imm16 shift = true) :
    ufield (encodeIM (k * 8388608) rd imm16 shift) 31 23 = k ∧
      decodeIM op (encodeIM (k * 8388608) rd imm16 shift) = op rd imm16 shift := by
  rw [imOperandsOk_iff] at h
  have hn : (encodeIM (k * 8388608) rd imm16 shift).toNat =
      k * 8388608 + shift * 2097152 + imm16 * 32 + rd := by
    simp only [encodeIM, BitVec.toNat_ofNat]; omega
  refine ⟨by rw [ufield_eq, hn]; omega, ?_⟩
  unfold decodeIM
  simp only [ufield_eq, hn]
  congr 1 <;> omega

/-- A B word carries its opcode and reads back its offset. -/
theorem encodeB_reads {offset : Int} (h : signedOk 26 offset = true) :
    ufield (encode (.b offset)) 31 26 = 5 ∧ sfield (encode (.b offset)) 25 0 = offset := by
  rw [boffOk_iff] at h
  have hn : (encode (.b offset)).toNat = 335544320 + (offset % 67108864).toNat := by
    simp only [encode, BitVec.toNat_ofNat]; omega
  refine ⟨by rw [ufield_eq, hn]; omega, ?_⟩
  simp only [sfield_eq, ufield_eq, hn]
  split <;> omega

end Sys2Proof
end

