-- ==== Sys2Proof/Laws/Memory.lean ====
section
/-! SUPPORT. The laws of DataMemory and of the InstructionStore: read after write, the canonical form, `mem_hi`
(20_memory.md R31 to R38). -/

namespace Sys2Proof.Machine

namespace Memory

theorem entry_write (m : Memory) (a b : Int) (v : Word) :
    entry (write m a v) b = if a = b then some v else entry m b := by
  induction m with
  | nil => simp [write, entry]
  | cons c m ih =>
    obtain ⟨k, w⟩ := c
    unfold write
    split
    · simp [entry]
    · split
      · next h => subst h; by_cases hb : a = b <;> simp [entry, hb]
      · next h1 h2 =>
        simp only [entry, ih]
        by_cases hk : k = b <;> by_cases ha : a = b <;> simp [hk, ha]; omega

theorem read_write_same (m : Memory) (a : Int) (v : Word) : read (write m a v) a = v := by
  simp [read, entry_write]

theorem read_write_other {m : Memory} {a b : Int} {v : Word} (h : a ≠ b) :
    read (write m a v) b = read m b := by
  simp [read, entry_write, h]

theorem mem_write {m : Memory} {a : Int} {v : Word} {c : Int × Word} (h : c ∈ write m a v) :
    c = (a, v) ∨ c ∈ m := by
  induction m with
  | nil => simpa [write] using h
  | cons d m ih =>
    obtain ⟨k, w⟩ := d
    unfold write at h
    split at h
    · simpa using h
    · split at h
      · simp only [List.mem_cons] at h ⊢; tauto
      · simp only [List.mem_cons] at h ⊢
        rcases h with h | h
        · tauto
        · rcases ih h with h | h <;> tauto

/-- The memory of reset is in the canonical form. -/
theorem wf_nil : wf [] := ⟨List.Pairwise.nil, fun c hc => by cases hc⟩

theorem wf_tail {c : Int × Word} {m : Memory} (h : wf (c :: m)) : wf m :=
  ⟨(List.pairwise_cons.1 h.1).2, fun d hd => h.2 d (List.mem_cons_of_mem _ hd)⟩

/-- A write at an aligned address in range keeps the canonical form (R31, R34). -/
theorem write_wf {m : Memory} {a : Int} {v : Word} (h : wf m) (ha : a % 4 = 0)
    (lo : -9223372036854775808 ≤ a) (hi : a ≤ 9223372036854775807) : wf (write m a v) := by
  refine ⟨?_, fun c hc => ?_⟩
  · induction m with
    | nil => simp [write]
    | cons d m ih =>
      obtain ⟨k, w⟩ := d
      have hp := List.pairwise_cons.1 h.1
      unfold write
      split
      · next hlt =>
        refine List.pairwise_cons.2 ⟨fun c hc => ?_, h.1⟩
        rcases List.mem_cons.1 hc with rfl | hc
        · exact hlt
        · exact lt_trans hlt (hp.1 c hc)
      · split
        · next heq => subst heq; exact List.pairwise_cons.2 ⟨hp.1, hp.2⟩
        · next h1 h2 =>
          refine List.pairwise_cons.2 ⟨fun c hc => ?_, ih (wf_tail h)⟩
          rcases mem_write hc with rfl | hc
          · show k < a; omega
          · exact hp.1 c hc
  · rcases mem_write hc with rfl | hc
    · exact ⟨ha, lo, hi⟩
    · exact h.2 c hc

/-- A write at an aligned effective address keeps the canonical form (R32, R35). -/
theorem write_wf_of_aligned {m : Memory} {ea v : Word} (h : wf m) (ha : aligned ea = true) :
    wf (write m ea.toInt v) := by
  have h4 : ea.toNat % 4 = 0 := by simpa [aligned] using ha
  have := ea.isLt
  refine write_wf h ?_ ?_ ?_ <;> rw [BitVec.toInt_eq_toNat_cond] <;> split <;> omega

theorem raiseHi_comm (hi : Option Int) (a b : Int) :
    raiseHi (raiseHi hi a) b = raiseHi (raiseHi hi b) a := by
  cases hi with
  | none => by_cases h1 : a < b <;> by_cases h2 : b < a <;> simp [raiseHi, h1, h2] <;> omega
  | some h =>
    simp only [raiseHi]
    by_cases h1 : h < a <;> by_cases h2 : h < b <;> simp only [h1, h2, if_true, if_false] <;>
      (repeat' split) <;> simp <;> omega

theorem raiseHi_idem (hi : Option Int) (a : Int) : raiseHi (raiseHi hi a) a = raiseHi hi a := by
  cases hi with
  | none => simp [raiseHi]
  | some h => by_cases hlt : h < a <;> simp [raiseHi, hlt]

@[simp] theorem highest_cons (c : Int × Word) (m : Memory) :
    highest (c :: m) = raiseHi (highest m) c.1 := rfl

/-- `mem_hi` follows a write: it stays the largest key (R20, R34). -/
theorem highest_write (m : Memory) (a : Int) (v : Word) :
    highest (write m a v) = raiseHi (highest m) a := by
  induction m with
  | nil => rfl
  | cons d m ih =>
    obtain ⟨k, w⟩ := d
    unfold write
    split
    · simp
    · split
      · next h => subst h; simp [raiseHi_idem]
      · simp [ih, raiseHi_comm]

theorem le_highest {m : Memory} {c : Int × Word} (h : c ∈ m) : ∃ hi, highest m = some hi ∧ c.1 ≤ hi := by
  induction m with
  | nil => simp at h
  | cons d m ih =>
    rw [highest_cons]
    rcases List.mem_cons.1 h with rfl | h
    · cases hm : highest m with
      | none => exact ⟨c.1, rfl, le_rfl⟩
      | some k => simp only [raiseHi]; split <;> exact ⟨_, rfl, by omega⟩
    · obtain ⟨k, hk, hle⟩ := ih h
      rw [hk]; simp only [raiseHi]; split <;> exact ⟨_, rfl, by omega⟩

/-- `mem_hi` is the address of an entry (R20). -/
theorem highest_mem {m : Memory} {hi : Int} (h : highest m = some hi) : ∃ v, (hi, v) ∈ m := by
  induction m generalizing hi with
  | nil => simp [highest] at h
  | cons d m ih =>
    rw [highest_cons] at h
    cases hm : highest m with
    | none =>
      rw [hm] at h; simp only [raiseHi, Option.some.injEq] at h
      exact ⟨d.2, by simp [← h]⟩
    | some k =>
      rw [hm] at h; simp only [raiseHi] at h
      split at h
      · simp only [Option.some.injEq] at h; exact ⟨d.2, by simp [← h]⟩
      · obtain ⟨v, hv⟩ := ih (hm.trans h); exact ⟨v, List.mem_cons_of_mem _ hv⟩

theorem mem_of_entry {m : Memory} {a : Int} {v : Word} (h : entry m a = some v) : (a, v) ∈ m := by
  induction m with
  | nil => simp [entry] at h
  | cons d m ih =>
    obtain ⟨k, w⟩ := d
    unfold entry at h
    split at h
    · next hk => subst hk; simp_all
    · exact List.mem_cons_of_mem _ (ih h)

/-- In the canonical form every listed cell is the entry at its address. -/
theorem entry_of_mem {m : Memory} {a : Int} {v : Word} (h : wf m) (hm : (a, v) ∈ m) : entry m a = some v := by
  induction m with
  | nil => simp at hm
  | cons d m ih =>
    obtain ⟨k, w⟩ := d
    unfold entry
    rcases List.mem_cons.1 hm with he | hm
    · simp_all
    · have : k < a := (List.pairwise_cons.1 h.1).1 _ hm
      rw [if_neg (by omega)]
      exact ih (wf_tail h) hm

/-- No cell lies above `mem_hi`: an address above it reads as zero (R175). -/
theorem read_above {m : Memory} {a : Int} (h : ∀ hi, highest m = some hi → hi < a) : read m a = 0 := by
  unfold read
  cases he : entry m a with
  | none => rfl
  | some v =>
    obtain ⟨hi, h1, h2⟩ := le_highest (mem_of_entry he)
    have := h hi h1
    simp only at h2
    omega

/-- Equal memories are equal data: canonical memories with the same entries are the same list. -/
theorem ext_of_wf {m n : Memory} (hm : wf m) (hn : wf n) (h : ∀ a, entry m a = entry n a) : m = n := by
  induction m generalizing n with
  | nil =>
    cases n with
    | nil => rfl
    | cons d n => have := h d.1; simp [entry] at this
  | cons c m ih =>
    cases n with
    | nil => have := h c.1; simp [entry] at this
    | cons d n =>
      obtain ⟨k, v⟩ := c
      obtain ⟨l, w⟩ := d
      have pm := List.pairwise_cons.1 hm.1
      have pn := List.pairwise_cons.1 hn.1
      have below : ∀ {q : Memory} {b : Int}, (∀ c ∈ q, b < c.1) → entry q b = none := by
        intro q b hq
        cases he : entry q b with
        | none => rfl
        | some u => have := hq _ (mem_of_entry he); simp at this
      have hkl : k = l := by
        by_contra hne
        rcases lt_or_gt_of_ne hne with hlt | hlt
        · have := h k
          rw [entry, if_pos rfl, entry, if_neg (Ne.symm hne),
            below fun c hc => lt_trans hlt (pn.1 c hc)] at this
          exact absurd this (by simp)
        · have := h l
          rw [entry, if_neg hne, below fun c hc => lt_trans hlt (pm.1 c hc), entry, if_pos rfl] at this
          exact absurd this (by simp)
      subst hkl
      have hvw : v = w := by have := h k; simpa [entry] using this
      subst hvw
      rw [ih (wf_tail hm) (wf_tail hn) fun a => ?_]
      by_cases ha : k = a
      · subst ha; rw [below pm.1, below pn.1]
      · simpa [entry, ha] using h a

end Memory

namespace Store

theorem lookup_insert (st : Store) (a b : Nat) (r : Record) :
    lookup (insert st a r) b = if a = b then some r else lookup st b := by
  induction st with
  | nil => simp [insert, lookup]
  | cons c st ih =>
    obtain ⟨k, q⟩ := c
    unfold insert
    split
    · simp [lookup]
    · split
      · next h => subst h; by_cases hb : a = b <;> simp [lookup, hb]
      · next h1 h2 =>
        simp only [lookup, ih]
        by_cases hk : k = b <;> by_cases ha : a = b <;> simp [hk, ha]; omega

theorem mem_of_lookup {st : Store} {a : Nat} {r : Record} (h : lookup st a = some r) : (a, r) ∈ st := by
  induction st with
  | nil => simp [lookup] at h
  | cons d st ih =>
    obtain ⟨k, w⟩ := d
    unfold lookup at h
    split at h
    · next hk => subst hk; simp_all
    · exact List.mem_cons_of_mem _ (ih h)

end Store

/-- The next step of a machine with a placed word fetches the decoded record (20_memory.md R38; log 5). -/
theorem State.ifetch_withFetchWord (s : State) (nbits w : Nat) :
    (s.withFetchWord nbits w).ifetch (s.withFetchWord nbits w).pc.toNat =
      some (decode s.pc.toNat (BitVec.ofNat 32 (w % 2 ^ nbits))) := by
  show Store.lookup (Store.insert s.istore s.pc.toNat _) s.pc.toNat = _
  rw [Store.lookup_insert, if_pos rfl]

end Sys2Proof.Machine
end

