-- ==== Sys2Proof/Laws/State.lean ====
section
/-! SUPPORT. One lemma per field of State per update, so that no proof unfolds a record update. -/

namespace Sys2Proof.Machine

namespace State

/-! ### `advance` -/

@[simp] theorem advance_x (s : State) : s.advance.x = s.x := rfl
@[simp] theorem advance_pc (s : State) : s.advance.pc = s.pc + 4 := rfl
@[simp] theorem advance_mem (s : State) : s.advance.mem = s.mem := rfl
@[simp] theorem advance_memHi (s : State) : s.advance.memHi = s.memHi := rfl
@[simp] theorem advance_cycle (s : State) : s.advance.cycle = s.cycle := rfl
@[simp] theorem advance_run (s : State) : s.advance.run = s.run := rfl
@[simp] theorem advance_fault (s : State) : s.advance.fault = s.fault := rfl
@[simp] theorem advance_trace (s : State) : s.advance.trace = s.trace := rfl
@[simp] theorem advance_istore (s : State) : s.advance.istore = s.istore := rfl
@[simp] theorem advance_cfg (s : State) : s.advance.cfg = s.cfg := rfl

/-! ### `branch` -/

@[simp] theorem branch_x (s : State) (offset : Int) : (s.branch offset).x = s.x := rfl
@[simp] theorem branch_pc (s : State) (offset : Int) : (s.branch offset).pc = s.pc + wrap64 (4 * offset) := rfl
@[simp] theorem branch_mem (s : State) (offset : Int) : (s.branch offset).mem = s.mem := rfl
@[simp] theorem branch_memHi (s : State) (offset : Int) : (s.branch offset).memHi = s.memHi := rfl
@[simp] theorem branch_cycle (s : State) (offset : Int) : (s.branch offset).cycle = s.cycle := rfl
@[simp] theorem branch_run (s : State) (offset : Int) : (s.branch offset).run = s.run := rfl
@[simp] theorem branch_fault (s : State) (offset : Int) : (s.branch offset).fault = s.fault := rfl
@[simp] theorem branch_trace (s : State) (offset : Int) : (s.branch offset).trace = s.trace := rfl
@[simp] theorem branch_istore (s : State) (offset : Int) : (s.branch offset).istore = s.istore := rfl
@[simp] theorem branch_cfg (s : State) (offset : Int) : (s.branch offset).cfg = s.cfg := rfl

/-! ### `memWrite` -/

@[simp] theorem memWrite_x (s : State) (ea v : Word) : (s.memWrite ea v).x = s.x := rfl
@[simp] theorem memWrite_pc (s : State) (ea v : Word) : (s.memWrite ea v).pc = s.pc := rfl
@[simp] theorem memWrite_mem (s : State) (ea v : Word) : (s.memWrite ea v).mem = Memory.write s.mem ea.toInt v := rfl
@[simp] theorem memWrite_memHi (s : State) (ea v : Word) : (s.memWrite ea v).memHi = raiseHi s.memHi ea.toInt := rfl
@[simp] theorem memWrite_cycle (s : State) (ea v : Word) : (s.memWrite ea v).cycle = s.cycle := rfl
@[simp] theorem memWrite_run (s : State) (ea v : Word) : (s.memWrite ea v).run = s.run := rfl
@[simp] theorem memWrite_fault (s : State) (ea v : Word) : (s.memWrite ea v).fault = s.fault := rfl
@[simp] theorem memWrite_trace (s : State) (ea v : Word) : (s.memWrite ea v).trace = s.trace := rfl
@[simp] theorem memWrite_istore (s : State) (ea v : Word) : (s.memWrite ea v).istore = s.istore := rfl
@[simp] theorem memWrite_cfg (s : State) (ea v : Word) : (s.memWrite ea v).cfg = s.cfg := rfl

/-! ### `halt` -/

@[simp] theorem halt_x (s : State) : s.halt.x = s.x := rfl
@[simp] theorem halt_pc (s : State) : s.halt.pc = s.pc := rfl
@[simp] theorem halt_mem (s : State) : s.halt.mem = s.mem := rfl
@[simp] theorem halt_memHi (s : State) : s.halt.memHi = s.memHi := rfl
@[simp] theorem halt_cycle (s : State) : s.halt.cycle = s.cycle := rfl
@[simp] theorem halt_run (s : State) : s.halt.run = .halted := rfl
@[simp] theorem halt_fault (s : State) : s.halt.fault = s.fault := rfl
@[simp] theorem halt_trace (s : State) : s.halt.trace = s.trace := rfl
@[simp] theorem halt_istore (s : State) : s.halt.istore = s.istore := rfl
@[simp] theorem halt_cfg (s : State) : s.halt.cfg = s.cfg := rfl

/-! ### `raise` -/

@[simp] theorem raise_x (s : State) (c : Cause) (info : FaultInfo) : (s.raise c info).x = s.x := rfl
@[simp] theorem raise_pc (s : State) (c : Cause) (info : FaultInfo) : (s.raise c info).pc = s.pc := rfl
@[simp] theorem raise_mem (s : State) (c : Cause) (info : FaultInfo) : (s.raise c info).mem = s.mem := rfl
@[simp] theorem raise_memHi (s : State) (c : Cause) (info : FaultInfo) : (s.raise c info).memHi = s.memHi := rfl
@[simp] theorem raise_cycle (s : State) (c : Cause) (info : FaultInfo) : (s.raise c info).cycle = s.cycle := rfl
@[simp] theorem raise_run (s : State) (c : Cause) (info : FaultInfo) : (s.raise c info).run = .faulted := rfl
@[simp] theorem raise_fault (s : State) (c : Cause) (info : FaultInfo) : (s.raise c info).fault = some { cause := c, pc := s.pc, info := info } := rfl
@[simp] theorem raise_trace (s : State) (c : Cause) (info : FaultInfo) : (s.raise c info).trace = s.trace := rfl
@[simp] theorem raise_istore (s : State) (c : Cause) (info : FaultInfo) : (s.raise c info).istore = s.istore := rfl
@[simp] theorem raise_cfg (s : State) (c : Cause) (info : FaultInfo) : (s.raise c info).cfg = s.cfg := rfl

/-! ### `commit` -/

@[simp] theorem commit_x (s : State) (r : Record) : (s.commit r).x = s.x := rfl
@[simp] theorem commit_pc (s : State) (r : Record) : (s.commit r).pc = s.pc := rfl
@[simp] theorem commit_mem (s : State) (r : Record) : (s.commit r).mem = s.mem := rfl
@[simp] theorem commit_memHi (s : State) (r : Record) : (s.commit r).memHi = s.memHi := rfl
@[simp] theorem commit_cycle (s : State) (r : Record) : (s.commit r).cycle = s.cycle + 1 := rfl
@[simp] theorem commit_run (s : State) (r : Record) : (s.commit r).run = s.run := rfl
@[simp] theorem commit_fault (s : State) (r : Record) : (s.commit r).fault = s.fault := rfl
@[simp] theorem commit_trace (s : State) (r : Record) : (s.commit r).trace = s.trace ++ [s.tick.snapshot r] := rfl
@[simp] theorem commit_istore (s : State) (r : Record) : (s.commit r).istore = s.istore := rfl
@[simp] theorem commit_cfg (s : State) (r : Record) : (s.commit r).cfg = s.cfg := rfl

/-! ### `placeRecord` -/

@[simp] theorem placeRecord_x (s : State) (a : Nat) (r : Record) : (s.placeRecord a r).x = s.x := rfl
@[simp] theorem placeRecord_pc (s : State) (a : Nat) (r : Record) : (s.placeRecord a r).pc = s.pc := rfl
@[simp] theorem placeRecord_mem (s : State) (a : Nat) (r : Record) : (s.placeRecord a r).mem = s.mem := rfl
@[simp] theorem placeRecord_memHi (s : State) (a : Nat) (r : Record) : (s.placeRecord a r).memHi = s.memHi := rfl
@[simp] theorem placeRecord_cycle (s : State) (a : Nat) (r : Record) : (s.placeRecord a r).cycle = s.cycle := rfl
@[simp] theorem placeRecord_run (s : State) (a : Nat) (r : Record) : (s.placeRecord a r).run = s.run := rfl
@[simp] theorem placeRecord_fault (s : State) (a : Nat) (r : Record) : (s.placeRecord a r).fault = s.fault := rfl
@[simp] theorem placeRecord_trace (s : State) (a : Nat) (r : Record) : (s.placeRecord a r).trace = s.trace := rfl
@[simp] theorem placeRecord_istore (s : State) (a : Nat) (r : Record) : (s.placeRecord a r).istore = Store.insert s.istore a r := rfl
@[simp] theorem placeRecord_cfg (s : State) (a : Nat) (r : Record) : (s.placeRecord a r).cfg = s.cfg := rfl

/-! ### `writeReg` -/

@[simp] theorem writeReg_pc (s : State) (i : Nat) (v : Word) : (s.writeReg i v).pc = s.pc := by
  unfold writeReg; split <;> rfl
@[simp] theorem writeReg_mem (s : State) (i : Nat) (v : Word) : (s.writeReg i v).mem = s.mem := by
  unfold writeReg; split <;> rfl
@[simp] theorem writeReg_memHi (s : State) (i : Nat) (v : Word) : (s.writeReg i v).memHi = s.memHi := by
  unfold writeReg; split <;> rfl
@[simp] theorem writeReg_cycle (s : State) (i : Nat) (v : Word) : (s.writeReg i v).cycle = s.cycle := by
  unfold writeReg; split <;> rfl
@[simp] theorem writeReg_run (s : State) (i : Nat) (v : Word) : (s.writeReg i v).run = s.run := by
  unfold writeReg; split <;> rfl
@[simp] theorem writeReg_fault (s : State) (i : Nat) (v : Word) : (s.writeReg i v).fault = s.fault := by
  unfold writeReg; split <;> rfl
@[simp] theorem writeReg_trace (s : State) (i : Nat) (v : Word) : (s.writeReg i v).trace = s.trace := by
  unfold writeReg; split <;> rfl
@[simp] theorem writeReg_istore (s : State) (i : Nat) (v : Word) : (s.writeReg i v).istore = s.istore := by
  unfold writeReg; split <;> rfl
@[simp] theorem writeReg_cfg (s : State) (i : Nat) (v : Word) : (s.writeReg i v).cfg = s.cfg := by
  unfold writeReg; split <;> rfl

/-! ### The state after reset -/

@[simp] theorem resetWith_x (cfg : Config) : (resetWith cfg).x = Vector.replicate 32 0 := rfl
@[simp] theorem resetWith_pc (cfg : Config) : (resetWith cfg).pc = wrap64 cfg.entryPc := rfl
@[simp] theorem resetWith_mem (cfg : Config) : (resetWith cfg).mem = [] := rfl
@[simp] theorem resetWith_memHi (cfg : Config) : (resetWith cfg).memHi = none := rfl
@[simp] theorem resetWith_cycle (cfg : Config) : (resetWith cfg).cycle = 0 := rfl
@[simp] theorem resetWith_run (cfg : Config) : (resetWith cfg).run = .running := rfl
@[simp] theorem resetWith_fault (cfg : Config) : (resetWith cfg).fault = none := rfl
@[simp] theorem resetWith_trace (cfg : Config) : (resetWith cfg).trace = [] := rfl
@[simp] theorem resetWith_istore (cfg : Config) : (resetWith cfg).istore = [] := rfl
@[simp] theorem resetWith_cfg (cfg : Config) : (resetWith cfg).cfg = cfg := rfl

/-! ### The loaded state -/

@[simp] theorem load_x (cfg : Config) (prog : Store) (image : Memory) :
    (load cfg prog image).x = Vector.replicate 32 0 := rfl
@[simp] theorem load_pc (cfg : Config) (prog : Store) (image : Memory) :
    (load cfg prog image).pc = wrap64 cfg.entryPc := rfl
@[simp] theorem load_mem (cfg : Config) (prog : Store) (image : Memory) :
    (load cfg prog image).mem = image := rfl
@[simp] theorem load_memHi (cfg : Config) (prog : Store) (image : Memory) :
    (load cfg prog image).memHi = Memory.highest image := rfl
@[simp] theorem load_cycle (cfg : Config) (prog : Store) (image : Memory) :
    (load cfg prog image).cycle = 0 := rfl
@[simp] theorem load_run (cfg : Config) (prog : Store) (image : Memory) :
    (load cfg prog image).run = .running := rfl
@[simp] theorem load_fault (cfg : Config) (prog : Store) (image : Memory) :
    (load cfg prog image).fault = none := rfl
@[simp] theorem load_trace (cfg : Config) (prog : Store) (image : Memory) :
    (load cfg prog image).trace = [] := rfl
@[simp] theorem load_istore (cfg : Config) (prog : Store) (image : Memory) :
    (load cfg prog image).istore = prog := rfl
@[simp] theorem load_cfg (cfg : Config) (prog : Store) (image : Memory) :
    (load cfg prog image).cfg = cfg := rfl

end State

end Sys2Proof.Machine
end

