-- ==== Sys2Proof/Laws/Operations.lean ====
section
/-! SUPPORT. One spec lemma per shared operation: registers, the operand check, the alignment check, raising a condition. -/

namespace Sys2Proof.Machine

namespace State

/-! ### Registers (10_state.md R12, R13) -/

@[simp] theorem isZeroReg_writeReg (s : State) (i j : Nat) (v : Word) :
    (s.writeReg i v).isZeroReg j = s.isZeroReg j := by
  simp [isZeroReg]

theorem readReg_zeroReg {s : State} {i : Nat} (h : s.isZeroReg i = true) : s.readReg i = 0 := by
  simp [readReg, h]

theorem writeReg_zeroReg {s : State} {i : Nat} {v : Word} (h : s.isZeroReg i = true) :
    s.writeReg i v = s := by
  simp [writeReg, h]

/-- A read after a write: the written value at the same index, the old value elsewhere, zero at a hardwired register. -/
theorem readReg_writeReg {s : State} {i j : Nat} {v : Word} (hi : i < 32) :
    (s.writeReg i v).readReg j =
      if s.isZeroReg j = true then 0 else if i = j then v else s.readReg j := by
  unfold readReg
  rw [isZeroReg_writeReg]
  split
  · rfl
  · next hj =>
    unfold writeReg
    split
    · next hz =>
      by_cases hij : i = j
      · subst hij; exact absurd hz hj
      · simp [hij]
    · show ((s.x.setIfInBounds i v)[j]?).getD 0 = _
      rw [Vector.getElem?_setIfInBounds]
      by_cases hij : i = j
      · subst hij; simp [hi]
      · simp [hij]

/-- Two states with the same registers and parameters read alike. -/
theorem readReg_congr {s t : State} (hx : t.x = s.x) (hc : t.cfg = s.cfg) (i : Nat) :
    t.readReg i = s.readReg i := by
  simp [readReg, isZeroReg, hx, hc]

/-! ### Checks and fatal conditions (60_exceptions.md R193 to R195) -/

theorem checked_ok {s : State} {i : Instr} {go : Result} (h : i.WellFormed) : s.checked i go = go := by
  unfold checked; rw [if_pos h]

theorem checked_bad {s : State} {i : Instr} {go : Result} (h : ¬ i.WellFormed) :
    s.checked i go = .next (s.raise .malformedOperand (.address s.pc.toNat)) := by
  unfold checked; rw [if_neg h]

theorem checked_next {s t : State} {i : Instr} {go : Result} (h : s.checked i go = .next t) :
    (i.WellFormed ∧ go = .next t) ∨
      (¬ i.WellFormed ∧ t = s.raise .malformedOperand (.address s.pc.toNat)) := by
  by_cases hw : i.WellFormed
  · rw [checked_ok hw] at h; exact .inl ⟨hw, h⟩
  · rw [checked_bad hw] at h; cases h; exact .inr ⟨hw, rfl⟩

theorem alignedAccess_ok {s : State} {ea : Word} {go : Result} (h : aligned ea = true) :
    s.alignedAccess ea go = go := by
  unfold alignedAccess; rw [if_pos h]

theorem alignedAccess_bad {s : State} {ea : Word} {go : Result} (h : ¬ aligned ea = true) :
    s.alignedAccess ea go = .next (s.raise .misalignedDataAddress (.effectiveAddress ea)) := by
  unfold alignedAccess; rw [if_neg h]

theorem alignedAccess_next {s t : State} {ea : Word} {go : Result} (h : s.alignedAccess ea go = .next t) :
    (aligned ea = true ∧ go = .next t) ∨
      (¬ aligned ea = true ∧ t = s.raise .misalignedDataAddress (.effectiveAddress ea)) := by
  by_cases ha : aligned ea = true
  · rw [alignedAccess_ok ha] at h; exact .inl ⟨ha, h⟩
  · rw [alignedAccess_bad ha] at h; cases h; exact .inr ⟨ha, rfl⟩

theorem writeResult_ok {s : State} {i : Instr} {rd : Nat} {r : Word} (h : i.WellFormed) :
    s.writeResult i rd r = .next (s.writeReg rd r).advance := checked_ok h

theorem writeResult_next {s t : State} {i : Instr} {rd : Nat} {r : Word}
    (h : s.writeResult i rd r = .next t) :
    (i.WellFormed ∧ t = (s.writeReg rd r).advance) ∨
      (¬ i.WellFormed ∧ t = s.raise .malformedOperand (.address s.pc.toNat)) := by
  rcases checked_next h with ⟨hw, h⟩ | h
  · cases h; exact .inl ⟨hw, rfl⟩
  · exact .inr h

/-- The effective address is aligned exactly when the base register is (43_d_format.md R130). -/
theorem aligned_effectiveAddress (s : State) (rn : Nat) (offset : Int) :
    aligned (s.effectiveAddress rn offset) = true ↔ (s.readReg rn).toNat % 4 = 0 := by
  have := (s.readReg rn).isLt
  simp only [aligned, effectiveAddress, beq_iff_eq, BitVec.toNat_add, BitVec.toNat_ofInt]
  omega

/-- A taken branch keeps the program counter a multiple of 4 (R140). -/
theorem branch_pc_aligned {s : State} {offset : Int} (h : s.pc.toNat % 4 = 0) :
    (s.branch offset).pc.toNat % 4 = 0 := by
  simp only [branch_pc, BitVec.toNat_add, BitVec.toNat_ofInt]
  omega

theorem advance_pc_aligned {s : State} (h : s.pc.toNat % 4 = 0) : s.advance.pc.toNat % 4 = 0 := by
  simp only [advance_pc, BitVec.toNat_add]
  have : (4 : Word).toNat = 4 := rfl
  omega

end State

/-- Halting and the end of the step do not interfere: the recorder and the counter neither read nor write the run state, so
the order of 46_nop_break.md R162 cannot be told apart (log 7). -/
theorem State.commit_halt (s : State) (r : Record) : s.halt.commit r = (s.commit r).halt := rfl

end Sys2Proof.Machine
end

