-- ==== Sys2Proof/Laws/PerInstr.lean ====
section
/-! SUPPORT. Statements made per instruction. `OwnRow`: the word of a well-formed instruction carries the opcode of a row of the
opcode map, and that row's field reads give the instruction back. -/

namespace Sys2Proof.Laws.OwnRow

/-- The encoded word fits a row of the opcode map that builds the instruction (30_encoding.md R63 to R69). -/
def Statement (i : Instr) : Prop :=
  i.WellFormed → ∃ r ∈ opcodeRows, r.fits (encode i) = true ∧ r.build (encode i) = i

/-- A row that carries the opcode and builds the instruction. -/
theorem of_row {i : Instr} (r : OpcodeRow) (hr : r ∈ opcodeRows) (hf : ufield (encode i) r.hi r.lo = r.opcode)
    (hb : r.build (encode i) = i) : ∃ r ∈ opcodeRows, r.fits (encode i) = true ∧ r.build (encode i) = i :=
  ⟨r, hr, by simp [OpcodeRow.fits, hf], hb⟩

theorem and (rd rn rm : Nat) (shamt : Int) : Statement (.and rd rn rm shamt) := fun h =>
  have e := encodeR_reads (op := .and) (k := 1104) (by decide) h
  of_row ⟨31, 21, 1104, decodeR .and⟩ (by simp [opcodeRows, rRows, otherRows]) e.1 e.2

theorem add (rd rn rm : Nat) (shamt : Int) : Statement (.add rd rn rm shamt) := fun h =>
  have e := encodeR_reads (op := .add) (k := 1112) (by decide) h
  of_row ⟨31, 21, 1112, decodeR .add⟩ (by simp [opcodeRows, rRows, otherRows]) e.1 e.2

theorem orr (rd rn rm : Nat) (shamt : Int) : Statement (.orr rd rn rm shamt) := fun h =>
  have e := encodeR_reads (op := .orr) (k := 1360) (by decide) h
  of_row ⟨31, 21, 1360, decodeR .orr⟩ (by simp [opcodeRows, rRows, otherRows]) e.1 e.2

theorem eor (rd rn rm : Nat) (shamt : Int) : Statement (.eor rd rn rm shamt) := fun h =>
  have e := encodeR_reads (op := .eor) (k := 1872) (by decide) h
  of_row ⟨31, 21, 1872, decodeR .eor⟩ (by simp [opcodeRows, rRows, otherRows]) e.1 e.2

theorem sub (rd rn rm : Nat) (shamt : Int) : Statement (.sub rd rn rm shamt) := fun h =>
  have e := encodeR_reads (op := .sub) (k := 1624) (by decide) h
  of_row ⟨31, 21, 1624, decodeR .sub⟩ (by simp [opcodeRows, rRows, otherRows]) e.1 e.2

theorem asr (rd rn rm : Nat) (shamt : Int) : Statement (.asr rd rn rm shamt) := fun h =>
  have e := encodeR_reads (op := .asr) (k := 1692) (by decide) h
  of_row ⟨31, 21, 1692, decodeR .asr⟩ (by simp [opcodeRows, rRows, otherRows]) e.1 e.2

theorem lsr (rd rn rm : Nat) (shamt : Int) : Statement (.lsr rd rn rm shamt) := fun h =>
  have e := encodeR_reads (op := .lsr) (k := 1690) (by decide) h
  of_row ⟨31, 21, 1690, decodeR .lsr⟩ (by simp [opcodeRows, rRows, otherRows]) e.1 e.2

theorem lsl (rd rn rm : Nat) (shamt : Int) : Statement (.lsl rd rn rm shamt) := fun h =>
  have e := encodeR_reads (op := .lsl) (k := 1691) (by decide) h
  of_row ⟨31, 21, 1691, decodeR .lsl⟩ (by simp [opcodeRows, rRows, otherRows]) e.1 e.2

theorem addi (rd rn : Nat) (imm : Int) : Statement (.addi rd rn imm) := fun h =>
  have e := encodeI_reads (op := .addi) (k := 580) (by decide) h
  of_row ⟨31, 22, 580, decodeI .addi⟩ (by simp [opcodeRows, rRows, otherRows]) e.1 e.2

theorem subi (rd rn : Nat) (imm : Int) : Statement (.subi rd rn imm) := fun h =>
  have e := encodeI_reads (op := .subi) (k := 836) (by decide) h
  of_row ⟨31, 22, 836, decodeI .subi⟩ (by simp [opcodeRows, rRows, otherRows]) e.1 e.2

theorem ldur (rt rn : Nat) (offset : Int) : Statement (.ldur rt rn offset) := fun h =>
  have e := encodeD_reads (op := .ldur) (k := 1986) (by decide) h
  of_row ⟨31, 21, 1986, decodeD .ldur⟩ (by simp [opcodeRows, rRows, otherRows]) e.1 e.2

theorem stur (rt rn : Nat) (offset : Int) : Statement (.stur rt rn offset) := fun h =>
  have e := encodeD_reads (op := .stur) (k := 1984) (by decide) h
  of_row ⟨31, 21, 1984, decodeD .stur⟩ (by simp [opcodeRows, rRows, otherRows]) e.1 e.2

theorem b (offset : Int) : Statement (.b offset) := fun h =>
  have e := encodeB_reads h
  of_row ⟨31, 26, 5, fun w => .b (sfield w 25 0)⟩ (by simp [opcodeRows, rRows, otherRows]) e.1 (congrArg Instr.b e.2)

theorem cbz (rt : Nat) (offset : Int) : Statement (.cbz rt offset) := fun h =>
  have e := encodeCB_reads (op := .cbz) (k := 180) (by decide) h
  of_row ⟨31, 24, 180, decodeCB .cbz⟩ (by simp [opcodeRows, rRows, otherRows]) e.1 e.2

theorem cbnz (rt : Nat) (offset : Int) : Statement (.cbnz rt offset) := fun h =>
  have e := encodeCB_reads (op := .cbnz) (k := 181) (by decide) h
  of_row ⟨31, 24, 181, decodeCB .cbnz⟩ (by simp [opcodeRows, rRows, otherRows]) e.1 e.2

theorem movz (rd imm16 shift : Nat) : Statement (.movz rd imm16 shift) := fun h =>
  have e := encodeIM_reads (op := .movz) (k := 421) (by decide) h
  of_row ⟨31, 23, 421, decodeIM .movz⟩ (by simp [opcodeRows, rRows, otherRows]) e.1 e.2

theorem movk (rd imm16 shift : Nat) : Statement (.movk rd imm16 shift) := fun h =>
  have e := encodeIM_reads (op := .movk) (k := 485) (by decide) h
  of_row ⟨31, 23, 485, decodeIM .movk⟩ (by simp [opcodeRows, rRows, otherRows]) e.1 e.2

theorem nop : Statement .nop := fun _ =>
  of_row ⟨31, 0, 0x00000000, fun _ => .nop⟩ (by simp [opcodeRows, rRows, otherRows]) rfl rfl

theorem brk : Statement .brk := fun _ =>
  of_row ⟨31, 0, 0xFEDEFFE7, fun _ => .brk⟩ (by simp [opcodeRows, rRows, otherRows]) rfl rfl

end Sys2Proof.Laws.OwnRow
end

