-- ==== Sys2Proof/Laws/Step.lean ====
section
/-! SUPPORT. What `exec` and `step` can do, said once: every instruction answers a next state, and the cases of a next state. -/

namespace Sys2Proof.Machine

/-- Every answer of an operand check is a next state when the execution's is. -/
theorem State.checked_total {s : State} {i : Instr} {go : Result} (h : ∃ t, go = .next t) :
    ∃ t, s.checked i go = .next t := by
  by_cases hw : i.WellFormed
  · rw [State.checked_ok hw]; exact h
  · rw [State.checked_bad hw]; exact ⟨_, rfl⟩

theorem State.alignedAccess_total {s : State} {ea : Word} {go : Result} (h : ∃ t, go = .next t) :
    ∃ t, s.alignedAccess ea go = .next t := by
  by_cases ha : aligned ea = true
  · rw [State.alignedAccess_ok ha]; exact h
  · rw [State.alignedAccess_bad ha]; exact ⟨_, rfl⟩

/-- No instruction stops the model: `exec` always answers a next state. -/
theorem exec_total (i : Instr) (s : State) : ∃ t, exec i s = .next t := by
  cases i <;>
    first
    | exact State.checked_total ⟨_, rfl⟩
    | exact State.checked_total (State.alignedAccess_total ⟨_, rfl⟩)
    | exact ⟨_, rfl⟩

/-- An instruction with an operand field outside its domain raises MalformedOperand and does nothing else (R193). -/
theorem exec_malformed {i : Instr} {s : State} (h : ¬ i.WellFormed) :
    exec i s = .next (s.raise .malformedOperand (.address s.pc.toNat)) := by
  cases i with
  | nop | brk => exact absurd rfl h
  | _ => exact State.checked_bad h

/-- The effects an instruction can have on a state. -/
inductive Effect (s : State) : Instr → State → Prop where
  | malformed {i : Instr} : ¬ i.WellFormed →
      Effect s i (s.raise .malformedOperand (.address s.pc.toNat))
  | misaligned {i : Instr} {ea : Word} : i.WellFormed → i.format = .d → ¬ aligned ea = true →
      Effect s i (s.raise .misalignedDataAddress (.effectiveAddress ea))
  | register {i : Instr} {rd : Nat} {v : Word} : i.WellFormed → rd < 32 →
      Effect s i (s.writeReg rd v).advance
  | store {rt rn : Nat} {offset : Int} : Instr.WellFormed (.stur rt rn offset) →
      aligned (s.effectiveAddress rn offset) = true →
      Effect s (.stur rt rn offset) (s.memWrite (s.effectiveAddress rn offset) (s.readReg rt)).advance
  | branch {i : Instr} {offset : Int} : i.WellFormed → i.format = .b ∨ i.format = .cb →
      signedOk Config.boffBits offset = true → Effect s i (s.branch offset)
  | fallThrough {i : Instr} : i.WellFormed → Effect s i s.advance
  | stop : Effect s .brk s.advance.halt

theorem Effect.ofResult {s t : State} {i : Instr} {rd : Nat} {r : Word}
    (h : s.writeResult i rd r = .next t) (hr : i.WellFormed → rd < 32) : Effect s i t := by
  rcases State.writeResult_next h with ⟨hw, rfl⟩ | ⟨hw, rfl⟩
  · exact .register hw (hr hw)
  · exact .malformed hw

/-- The inversion lemma of `exec`: a next state is one of the effects. -/
theorem exec_effect {i : Instr} {s t : State} (h : exec i s = .next t) : Effect s i t := by
  cases i with
  | and | add | orr | eor | sub | asr | lsr | lsl =>
    refine .ofResult h fun hw => ?_
    exact ((rOperandsOk_iff ..).1 hw).1
  | addi | subi =>
    refine .ofResult h fun hw => ?_
    exact ((iOperandsOk_iff ..).1 hw).1
  | movz | movk =>
    refine .ofResult h fun hw => ?_
    exact ((imOperandsOk_iff ..).1 hw).1
  | ldur rt rn offset =>
    rcases State.checked_next h with ⟨hw, h⟩ | ⟨hw, rfl⟩
    · rcases State.alignedAccess_next h with ⟨ha, h⟩ | ⟨ha, rfl⟩
      · cases h
        exact .register hw ((dOperandsOk_iff ..).1 hw).1
      · exact .misaligned hw rfl ha
    · exact .malformed hw
  | stur rt rn offset =>
    rcases State.checked_next h with ⟨hw, h⟩ | ⟨hw, rfl⟩
    · rcases State.alignedAccess_next h with ⟨ha, h⟩ | ⟨ha, rfl⟩
      · cases h; exact .store hw ha
      · exact .misaligned hw rfl ha
    · exact .malformed hw
  | b offset =>
    rcases State.checked_next h with ⟨hw, h⟩ | ⟨hw, rfl⟩
    · cases h; exact .branch hw (.inl rfl) hw
    · exact .malformed hw
  | cbz rt offset =>
    rcases State.checked_next h with ⟨hw, h⟩ | ⟨hw, rfl⟩
    · cases h
      have ho : signedOk Config.cboffBits offset = true :=
        (cboffOk_iff _).2 ((cbOperandsOk_iff ..).1 hw).2
      split
      · exact .branch hw (.inr rfl) (boff_of_cboff ho)
      · exact .fallThrough hw
    · exact .malformed hw
  | cbnz rt offset =>
    rcases State.checked_next h with ⟨hw, h⟩ | ⟨hw, rfl⟩
    · cases h
      have ho : signedOk Config.cboffBits offset = true :=
        (cboffOk_iff _).2 ((cbOperandsOk_iff ..).1 hw).2
      split
      · exact .branch hw (.inr rfl) (boff_of_cboff ho)
      · exact .fallThrough hw
    · exact .malformed hw
  | nop => cases h; exact .fallThrough rfl
  | brk => cases h; exact .stop

/-- What a step of a running machine can answer (R81). -/
inductive StepCase (s : State) : State → Prop where
  | fetchFailed : s.ifetch s.pc.toNat = none →
      StepCase s (s.raise .instructionFetchOutOfRange (.address s.pc.toNat))
  | unsupported {r : Record} {w : InstrWord} : s.ifetch s.pc.toNat = some r → r.shape = .unsupported w →
      StepCase s (s.raise .unsupportedInstruction (.unsupported r.addr w))
  | wrongAddr {r : Record} {i : Instr} : s.ifetch s.pc.toNat = some r → r.shape = .instr i →
      r.addr ≠ s.pc.toNat → StepCase s (s.raise .malformedOperand (.address r.addr))
  | raised {r : Record} {i : Instr} {t : State} : s.ifetch s.pc.toNat = some r → r.shape = .instr i →
      r.addr = s.pc.toNat → exec i s = .next t → t.run = .faulted → StepCase s t
  | executed {r : Record} {i : Instr} {t : State} : s.ifetch s.pc.toNat = some r → r.shape = .instr i →
      r.addr = s.pc.toNat → exec i s = .next t → t.run ≠ .faulted → StepCase s (t.commit r)

theorem step_running {s : State} (h : s.run = .running) : step s = runningStep s := by
  simp [step, engineStep, h]

/-- The inversion lemma of `step`. -/
theorem step_cases {s t : State} (h : step s = .next t) : s.run = .running ∧ StepCase s t := by
  have hrun : s.run = .running := by
    cases hr : s.run <;> simp [step, engineStep, hr] at h ⊢
  refine ⟨hrun, ?_⟩
  rw [step_running hrun] at h
  unfold runningStep at h
  split at h
  · next hf => cases h; exact .fetchFailed hf
  · next r hf =>
    unfold executeRecord at h
    split at h
    · next w hs => cases h; exact .unsupported hf hs
    · next i hs =>
      split at h
      · next ha =>
        obtain ⟨u, hu⟩ := exec_total i s
        rw [hu] at h
        simp only [completeStep] at h
        split at h
        · next hfault => cases h; exact .raised hf hs ha hu hfault
        · next hok => cases h; exact .executed hf hs ha hu hok
      · next ha => cases h; exact .wrongAddr hf hs ha

/-- A running machine always has a step, and it answers a next state (R81, R88). -/
theorem step_total {s : State} (h : s.run = .running) : ∃ t, step s = .next t := by
  rw [step_running h]
  unfold runningStep
  split
  · exact ⟨_, rfl⟩
  · unfold executeRecord
    split
    · exact ⟨_, rfl⟩
    · next i _ =>
      split
      · obtain ⟨u, hu⟩ := exec_total i s
        rw [hu]; simp only [completeStep]
        split <;> exact ⟨_, rfl⟩
      · exact ⟨_, rfl⟩

/-- The step of a record stored under its own address, when the instruction raises nothing (R81, R85, R86). -/
theorem step_executes {s t : State} {r : Record} {i : Instr} (hrun : s.run = .running)
    (hf : s.ifetch s.pc.toNat = some r) (ha : r.addr = s.pc.toNat) (hs : r.shape = .instr i)
    (he : exec i s = .next t) (ht : t.run ≠ .faulted) : step s = .next (t.commit r) := by
  rw [step_running hrun]
  simp [runningStep, hf, executeRecord, hs, ha, he, completeStep, ht]

end Sys2Proof.Machine
end

