-- ==== Sys2Proof/Laws/Trace.lean ====
section
/-! SUPPORT. The laws of numerals and of the memory dump (47_trace_recorder.md R174 to R176). -/

namespace Sys2Proof

theorem dec_eq (n : Nat) : dec n = if n < 10 then [Nat.digitChar n] else dec (n / 10) ++ [Nat.digitChar (n % 10)] := by
  unfold dec
  exact Nat.toDigits_eq_if (by decide)

/-- Induction along the digits of a number. -/
theorem dec_induction {P : Nat → Prop} (small : ∀ n < 10, P n) (big : ∀ n, 10 ≤ n → P (n / 10) → P n) (n : Nat) :
    P n := by
  induction n using Nat.strong_induction_on with
  | _ n ih =>
    by_cases h : n < 10
    · exact small n h
    · exact big n (by omega) (ih _ (by omega))

/-- The characters of a numeral are decimal digits. -/
theorem dec_digits (n : Nat) : ∀ c ∈ dec n, '0' ≤ c ∧ c ≤ '9' := by
  have hd : ∀ d < 10, '0' ≤ Nat.digitChar d ∧ Nat.digitChar d ≤ '9' := by decide
  refine dec_induction (P := fun n => ∀ c ∈ dec n, '0' ≤ c ∧ c ≤ '9') (fun n hn c hc => ?_) (fun n hn ih c hc => ?_) n
  · rw [dec_eq, if_pos hn, List.mem_singleton] at hc; subst hc; exact hd n hn
  · rw [dec_eq, if_neg (by omega)] at hc
    rcases List.mem_append.1 hc with hc | hc
    · exact ih c hc
    · rw [List.mem_singleton] at hc; subst hc; exact hd _ (by omega)

theorem dec_no_lf (n : Nat) : '\n' ∉ dec n := fun h => absurd (dec_digits n _ h).1 (by decide)

theorem decInt_no_lf (v : Int) : '\n' ∉ decInt v := by
  cases v with
  | ofNat n => exact dec_no_lf n
  | negSucc n => simp [decInt, dec_no_lf]

theorem sdec_no_lf (v : Word) : '\n' ∉ sdec v := decInt_no_lf _

namespace Machine

theorem valuesText_no_lf (vs : List Word) : '\n' ∉ valuesText vs := by
  simp [valuesText, sdec_no_lf]

/-- A register of the snapshot is what a register read gives (R172). -/
theorem State.regs_getElem? (s : State) {i : Nat} (h : i < 32) : s.regs[i]? = some (s.readReg i) := by
  unfold State.regs State.readReg State.isZeroReg
  by_cases hz : s.cfg.r31IsZero = true
  · rw [if_pos hz, Vector.getElem?_setIfInBounds]
    by_cases hi : 31 = i
    · subst hi; simp [hz]
    · have : ¬ i = 31 := fun e => hi e.symm
      simp [hz, hi, this, h]
  · simp [hz, h]

/-- The dump depends on memory, `mem_hi`, the store's length and ENTRY_PC alone. -/
theorem State.memDump_congr {s t : State} (hm : t.mem = s.mem) (hh : t.memHi = s.memHi)
    (hs : t.istore.length = s.istore.length) (hc : t.cfg = s.cfg) : t.memDump = s.memDump := by
  have hb : t.dataBase = s.dataBase := by simp [State.dataBase, State.ninstr, hs, hc]
  have hv : ∀ a, t.dumpValue a = s.dumpValue a := fun a => by simp [State.dumpValue, hm, hh]
  have hr : t.dumpRow = s.dumpRow := by funext r; simp [State.dumpRow, hb, hv]
  simp [State.memDump, State.nrows, State.nwords, hb, hh, hr]

/-- The value shown for a dumped address is what a read of it gives, placeholder or not (R175). -/
theorem State.dumpValue_eq_read {s : State} (h : s.memHi = Memory.highest s.mem) (a : Nat) :
    s.dumpValue a = Memory.read s.mem a := by
  unfold State.dumpValue
  split
  · next hn => rw [Memory.read_above]; intro hi hh; rw [← h, hn] at hh; cases hh
  · next hi hh =>
    split
    · rfl
    · rw [Memory.read_above]; intro hi' hh'; rw [← h, hh] at hh'; cases hh'; omega

end Machine

end Sys2Proof
end

