-- ==== Sys2Proof/Tests/Slice0.lean ====
section
/-! SUPPORT. Tests. Words, operands and expected results are the spec's (95_test_vectors.md; the examples of 41_r_format.md to
47_trace_recorder.md), not the model's. After them, for every obligation with hypotheses, a concrete case that meets them. -/

namespace Sys2Proof.Tests

open Sys2Proof Sys2Proof.Machine Sys2Proof.Claims

/-! ### Helpers -/

/-- A machine loaded with instruction words, a BREAK, and data words, under the default parameters (R69). -/
def loaded (ws : List InstrWord) : State := State.loadWords decode Config.default ws

/-- The word `w` alone, at address `a`, with `pc` there. -/
def placed (a : Nat) (w : InstrWord) : State :=
  { State.reset with pc := BitVec.ofNat 64 a, istore := [(a, decode a w)] }

/-- The instruction `i` as a record without text, alone at 96. -/
def recorded (i : Instr) : State := { State.reset with istore := [(96, ⟨96, [], .instr i⟩)] }

/-- `recorded` with register 31 hardwired. -/
def recordedZ (i : Instr) : State := { recorded i with cfg := ⟨96, true⟩ }

/-- What is seen in the next state of an answer. -/
def seen {α : Type} (r : Result) (f : State → α) : Option α :=
  match r with
  | .next t => some (f t)
  | .fault _ => none
  | .refused _ => none

/-- The state after one step, or the state itself when there is none. -/
def after (s : State) : State :=
  match step s with
  | .next t => t
  | .fault _ => s
  | .refused _ => s

theorem step_after {s : State} (h : s.run = .running) : step s = .next (after s) := by
  obtain ⟨t, ht⟩ := step_total h
  simp [after, ht]

/-! ### WellFormed: an ill-formed term for each check (30_encoding.md R58) -/

theorem smoke_register : Instr.wellFormed (.add 32 0 0 0) = false := by decide
theorem smoke_second_source : Instr.wellFormed (.and 0 0 32 0) = false := by decide
theorem smoke_shamt_high : Instr.wellFormed (.lsl 3 1 0 64) = false := by decide
theorem smoke_shamt_unused : Instr.wellFormed (.add 3 1 2 (-1)) = false := by decide
theorem smoke_imm : Instr.wellFormed (.addi 0 0 2048) = false ∧ Instr.wellFormed (.subi 0 0 (-2049)) = false := by
  decide
theorem smoke_doffset : Instr.wellFormed (.ldur 0 0 256) = false ∧ Instr.wellFormed (.stur 0 40 0) = false := by
  decide
theorem smoke_boffset : Instr.wellFormed (.b 33554432) = false ∧ Instr.wellFormed (.b (-33554433)) = false := by
  decide
theorem smoke_cboffset : Instr.wellFormed (.cbz 0 262144) = false ∧ Instr.wellFormed (.cbnz 32 0) = false := by
  decide
theorem smoke_imm16 : Instr.wellFormed (.movz 0 65536 0) = false := by decide
theorem smoke_chunk : Instr.wellFormed (.movk 0 0 4) = false := by decide

/-! ### Decoding: words of the spec (95_test_vectors.md sections 2 and 3) -/

theorem test_decode_r :
    decodeInstr 0b10001010000000100000000000100011#32 = some (.and 3 1 2 0) ∧
    decodeInstr 0b10001011000000100000000000100011#32 = some (.add 3 1 2 0) ∧
    decodeInstr 0b10101010000000100000000000101001#32 = some (.orr 9 1 2 0) ∧
    decodeInstr 0b11101010000000100000000000101010#32 = some (.eor 10 1 2 0) ∧
    decodeInstr 0b11001011000000010000000001000100#32 = some (.sub 4 2 1 0) ∧
    decodeInstr 0xD382FC23#32 = some (.asr 3 1 2 63) ∧ decodeInstr 0xD3428023#32 = some (.lsr 3 1 2 32) ∧
    decodeInstr 0xD37F0823#32 = some (.lsl 3 1 31 2) := by decide
theorem test_decode_i :
    decodeInstr 0b10010001001111111110110001000001#32 = some (.addi 1 2 (-5)) ∧
    decodeInstr 0xD1200041#32 = some (.subi 1 2 (-2048)) := by decide
theorem test_decode_d :
    decodeInstr 0xF85FF0A6#32 = some (.ldur 6 5 (-1)) ∧ decodeInstr 0xF80FF0A3#32 = some (.stur 3 5 255) ∧
    decodeInstr 0xF80020A3#32 = some (.stur 3 5 2) := by decide
theorem test_decode_b_cb :
    decodeInstr 0x16000000#32 = some (.b (-33554432)) ∧ decodeInstr 0x15FFFFFF#32 = some (.b 33554431) ∧
    decodeInstr 0xB480001F#32 = some (.cbz 31 (-262144)) ∧ decodeInstr 0xB57FFFE0#32 = some (.cbnz 0 262143) := by
  decide
theorem test_decode_im :
    decodeInstr 0xD2A01FE1#32 = some (.movz 1 255 1) ∧ decodeInstr 0xF2F579A1#32 = some (.movk 1 43981 3) := by
  decide
theorem test_decode_nop_break :
    decodeInstr 0x00000000#32 = some .nop ∧ decodeInstr 0xFEDEFFE7#32 = some .brk := by decide
/-- Words of 95_test_vectors.md section 2.6 that match no pattern. -/
theorem test_decode_unsupported :
    decodeInstr 0x00000001#32 = none ∧ decodeInstr 0xFEDEFFE6#32 = none ∧ decodeInstr 0xFFFFFFFF#32 = none ∧
    decodeInstr 0x12345678#32 = none ∧ decodeInstr 0x9B000000#32 = none ∧ decodeInstr 0xD3A00000#32 = none := by
  decide
theorem test_encode :
    encode (.lsl 3 1 31 2) = 0xD37F0823#32 ∧ encode (.subi 1 2 2047) = 0xD11FFC41#32 ∧
    encode (.stur 3 5 (-4)) = 0xF81FC0A3#32 ∧ encode (.b (-30)) = 0x17FFFFE2#32 ∧
    encode (.cbnz 2 (-2)) = 0xB5FFFFC2#32 ∧ encode (.movk 1 4660 2) = 0xF2C24681#32 := by decide
theorem test_text :
    (decode 136 0xD2A2468B#32).text = "MOVZ R11, 4660, LSL 16".toList ∧
    (decode 96 0xF85FF0A6#32).text = "LDUR R6, [R5, #-1]".toList ∧
    (decode 112 0xD3601025#32).text = "LSL R5, R1, #4".toList ∧
    (decode 116 0x17FFFFFD#32).text = "B #-3".toList := by decide

/-! ### Instructions (95_test_vectors.md sections 2.1 to 2.7) -/

theorem test_and : seen (step (((placed 96 0x8A020023#32).writeReg 1 0xFF00FF00FF00FF00).writeReg 2 0x0FF00FF00FF00FF0))
    (fun t => (t.readReg 3, t.pc)) = some (0x0F000F000F000F00, 100) := by decide
theorem test_orr : seen (step (((placed 96 0xAA020023#32).writeReg 1 0xFF00FF00FF00FF00).writeReg 2 0x0FF00FF00FF00FF0))
    (·.readReg 3) = some 0xFFF0FFF0FFF0FFF0 := by decide
theorem test_eor : seen (step (((placed 96 0xEA020023#32).writeReg 1 0xFF00FF00FF00FF00).writeReg 2 0x0FF00FF00FF00FF0))
    (·.readReg 3) = some 0xF0F0F0F0F0F0F0F0 := by decide
theorem test_add_wraps : seen (step (((placed 96 0x8B020023#32).writeReg 1 0xFFFFFFFFFFFFFFFF).writeReg 2 1))
    (·.readReg 3) = some 0 := by decide
theorem test_add_onto_itself : seen (step ((placed 96 0x8B010021#32).writeReg 1 21)) (·.readReg 1) = some 42 := by
  decide
theorem test_sub_order : seen (step (((placed 96 0xCB020023#32).writeReg 1 7).writeReg 2 10))
    (·.readReg 3) = some 0xFFFFFFFFFFFFFFFD := by decide
theorem test_asr_negative : seen (step ((placed 96 0xD3820423#32).writeReg 1 0xFFFFFFFFFFFFFFFB))
    (·.readReg 3) = some 0xFFFFFFFFFFFFFFFD := by decide
theorem test_asr_63 : seen (step ((placed 96 0xD382FC23#32).writeReg 1 0x8000000000000000))
    (·.readReg 3) = some 0xFFFFFFFFFFFFFFFF := by decide
theorem test_lsr_64_bits : seen (step ((placed 96 0xD3428023#32).writeReg 1 0xFFFFFFFF00000000))
    (·.readReg 3) = some 0x00000000FFFFFFFF := by decide
theorem test_lsl_loses_top : seen (step ((placed 96 0xD3620423#32).writeReg 1 0x8000000000000001))
    (·.readReg 3) = some 2 := by decide
theorem test_lsl_ignores_rm : seen (step (((placed 96 0xD37F0823#32).writeReg 1 1).writeReg 31 99))
    (·.readReg 3) = some 4 := by decide
theorem test_addi_negative : seen (step ((placed 96 0x913FEC41#32).writeReg 2 100)) (·.readReg 1) = some 95 := by
  decide
theorem test_subi_most_negative : seen (step (placed 96 0xD1200041#32)) (·.readReg 1) = some 2048 := by decide
theorem test_ldur_base_is_target :
    seen (step { (placed 96 0xF84000A5#32).writeReg 5 112 with mem := [(112, 99)], memHi := some 112 })
      (fun t => (t.readReg 5, t.mem, t.memHi)) = some (99, [(112, 99)], some 112) := by decide
theorem test_ldur_unwritten :
    seen (step { (placed 96 0xF84000A6#32).writeReg 5 4000 |>.writeReg 6 77 with mem := [(112, 1)], memHi := some 112 })
      (fun t => (t.readReg 6, t.mem, t.memHi)) = some (0, [(112, 1)], some 112) := by decide
theorem test_stur_zero_below :
    seen (step { (placed 96 0xF81FC0A3#32).writeReg 5 112 with mem := [(112, 1)], memHi := some 112 })
      (fun t => (t.mem, t.memHi)) = some ([(96, 0), (112, 1)], some 112) := by decide
theorem test_stur_negative_address : seen (step ((placed 96 0xF81000A3#32).writeReg 3 1))
    (fun t => (t.mem, t.memHi, t.memDump)) = some ([(-1024, 1)], some (-1024), []) := by decide
theorem test_b_backward : seen (step (placed 104 0x17FFFFFE#32)) (·.pc) = some 96 := by decide
theorem test_b_wraps : seen (step (placed 104 0x17FFFFE2#32)) (·.pc) = some 0xFFFFFFFFFFFFFFF0 := by decide
theorem test_cbz_taken : seen (step (placed 100 0xB4000061#32)) (·.pc) = some 112 := by decide
theorem test_cbz_tests_64_bits : seen (step ((placed 100 0xB4FFFFE1#32).writeReg 1 0x0000000100000000))
    (·.pc) = some 104 := by decide
theorem test_cbnz_taken : seen (step ((placed 108 0xB5FFFFC2#32).writeReg 2 3)) (·.pc) = some 100 := by decide
theorem test_cbnz_not_taken : seen (step (placed 108 0xB5FFFFC2#32)) (·.pc) = some 112 := by decide
theorem test_movz_clears : seen (step ((placed 96 0xD2A01FE1#32).writeReg 1 0x1234)) (·.readReg 1) = some 16711680 := by
  decide
theorem test_movk_keeps : seen (step ((placed 96 0xF2C24681#32).writeReg 1 0xFFFFFFFFFFFFFFFF))
    (·.readReg 1) = some 0xFFFF1234FFFFFFFF := by decide
/-- The source's own numeric example, S5. -/
theorem test_movk_source_example : seen (step ((placed 96 0xF2800001#32).writeReg 1 0xFFFFFFFF))
    (·.readReg 1) = some 0xFFFF0000 := by decide
theorem test_nop : seen (step (placed 96 0x00000000#32))
    (fun t => (t.pc, t.cycle, t.run, t.x, t.trace.length)) = some (100, 1, .running, Vector.replicate 32 0, 1) := by
  decide
theorem test_break : seen (step (placed 96 0xFEDEFFE7#32))
    (fun t => (t.pc, t.cycle, t.run, t.trace.map (·.addr))) = some (100, 1, .halted, [96]) := by decide
/-- 95_test_vectors.md section 2.7: a hardwired register 31 reads zero and drops a write. -/
theorem test_register_31 :
    seen (step (recorded (.addi 31 31 7))) (·.readReg 31) = some 7 ∧
    seen (step (recordedZ (.addi 31 31 7))) (fun t => (t.readReg 31, t.x[31], t.pc)) = some (0, 0, 100) := by decide

/-! ### Fatal conditions (95_test_vectors.md sections 2.1, 2.3, 2.6) -/

theorem test_malformed : seen (step (recorded (.lsl 3 1 0 64)))
    (fun t => (t.run, t.fault, t.cycle, t.trace)) =
      some (.faulted, some ⟨.malformedOperand, 96, .address 96⟩, 0, []) := by decide
/-- The example of 60_exceptions.md R197: a D record with `rn = 40` never computes an address. -/
theorem test_malformed_before_address : seen (step (recorded (.ldur 3 40 1))) (·.fault) =
    some (some ⟨.malformedOperand, 96, .address 96⟩) := by decide
theorem test_misaligned_store : seen (step (((placed 96 0xF80000A3#32).writeReg 5 114).writeReg 3 1))
    (fun t => (t.fault, t.mem, t.pc)) = some (some ⟨.misalignedDataAddress, 96, .effectiveAddress 114⟩, [], 96) := by
  decide
theorem test_misaligned_load : seen (step (((placed 96 0xF84030A3#32).writeReg 5 (wrap64 (-3))).writeReg 3 1))
    (fun t => (t.fault, t.readReg 3)) = some (some ⟨.misalignedDataAddress, 96, .effectiveAddress 9⟩, 1) := by decide
theorem test_unsupported : seen (step (placed 96 0x00000001#32)) (·.fault) =
    some (some ⟨.unsupportedInstruction, 96, .unsupported 96 0x00000001#32⟩) := by decide
theorem test_fetch : seen (step State.reset) (fun t => (t.fault, t.cycle, t.exitStatus)) =
    some (some ⟨.instructionFetchOutOfRange, 96, .address 96⟩, 0, some 1) := by decide
theorem test_stopped :
    (match step { State.reset with run := .halted } with | .fault .halted => true | _ => false) = true := by decide

/-! ### The load and the trace (95_test_vectors.md section 3.3: program P3) -/

/-- P3: the words and the two data words. -/
def p3 : State := loaded [0x91020001#32, 0xF8400022#32, 0xF8401023#32, 0x8B030044#32, 0xF800A024#32, 0xF840A025#32,
  0x00000000#32, 0xFEDEFFE7#32, 0x0000000A#32, 0xFFFFFFFF#32]

theorem test_load : (p3.ninstr, p3.dataBase, p3.mem, p3.memHi) =
    (8, 128, [(128, 10), (132, 0xFFFFFFFFFFFFFFFF)], some 132) := by decide
/-- Block 1 of P3, character for character. -/
theorem test_block_text : seen (step p3) State.traceText = some
    ("====================\ncycle:1\t96\tADDI R1, R0, #128\n\n".toList ++
     "r00:\t0\t128\t0\t0\t0\t0\t0\t0\nr08:\t0\t0\t0\t0\t0\t0\t0\t0\n".toList ++
     "r16:\t0\t0\t0\t0\t0\t0\t0\t0\nr24:\t0\t0\t0\t0\t0\t0\t0\t0\n\n".toList ++
     "128:\t10\t-1\t0\t0\t0\t0\t0\t0\n\n".toList) := by rfl
/-- The dump of R187: four instructions, one store at 112. -/
theorem test_dump_one_row :
    ({ loaded [0, 0, 0, 0xFEDEFFE7#32] with mem := [(112, 7)], memHi := some 112 } : State).memDump =
      [⟨112, #v[7, 0, 0, 0, 0, 0, 0, 0]⟩] := by decide

/-! ### Witnesses: for every obligation with hypotheses, a case that meets them all -/

/-- STUR R1, [R2, #0]; NOP; LDUR R3, [R2, #0]; BREAK, with 7 in R1 and 128 in R2. -/
def roundTrip : State :=
  ((loaded [0xF8000041#32, 0x00000000#32, 0xF8400043#32, 0xFEDEFFE7#32]).writeReg 1 7).writeReg 2 128

/-- A loaded program that begins with NOP. -/
def nopThen (ws : List InstrWord) : State := loaded (0x00000000#32 :: ws)

/-- The record of a decoded word at its own address is fetched. -/
theorem fetches_of {s : State} {i : Instr} {r : Record} (h : s.ifetch s.pc.toNat = some r) (ha : r.addr = s.pc.toNat)
    (hs : r.shape = .instr i) : s.Fetches i := ⟨r, h, ha, hs⟩

theorem steps_one {s : State} (h : s.run = .running) : Steps 1 s (after s) := ⟨_, step_after h, rfl⟩

theorem steps_two {s : State} (h : s.run = .running) (h2 : (after s).run = .running) :
    Steps 2 s (after (after s)) := ⟨_, step_after h, _, step_after h2, rfl⟩

/-- LoadFillsStoreAndMemory: both cases of the image, and InvariantHoldsAtReset. -/
theorem witness_load_cases : ([] : Memory) = [] ∧ ([(128, 10)] : Memory) ≠ [] ∧ Config.default.entryPc % 4 = 0 := by
  decide

/-- InvariantHoldsAfterLoad, PcDoesNotWrapIntoStore: a store and an image that meet the loader's premises. -/
theorem witness_loader_premises :
    StoreOk Config.default [(96, decode 96 0x00000000#32), (100, decode 100 0xFEDEFFE7#32)] ∧
    ImageOk Config.default [(96, decode 96 0x00000000#32), (100, decode 100 0xFEDEFFE7#32)] [(104, 5), (112, 0)] := by
  refine ⟨⟨by decide, by decide, by decide, fun k r h => ?_⟩, ⟨by decide, by decide⟩⟩
  rcases k with _ | _ | k
  · cases h; exact ⟨rfl, rfl⟩
  · cases h; exact ⟨rfl, rfl⟩
  · cases h

theorem roundTrip_inv : roundTrip.Inv :=
  ⟨by decide, by decide, by decide, fun h => (by cases h), by decide, by decide⟩

/-- EveryStepKeepsInvariant: a machine with the invariant about to store. -/
theorem witness_invariant_step : roundTrip.Inv ∧ step roundTrip = .next (after roundTrip) :=
  ⟨roundTrip_inv, step_after rfl⟩

/-- NoStepChangesInstructions, CycleCountsStepsOfRun, HaltedRunEndsWithBreakBlock: a loaded run of two steps that halts. -/
theorem witness_halted_run : ∃ t, Steps 2 (State.load Config.default (nopThen [0xFEDEFFE7#32]).istore []) t ∧
    t.run = .halted ∧ t.run ≠ .faulted :=
  ⟨_, steps_two rfl (by decide), by decide, by decide⟩

/-- CycleCountsStepsOfRun: a loaded run of two steps that faults. -/
theorem witness_faulted_run : ∃ t, Steps 2 (State.load Config.default [(96, decode 96 0x00000000#32)] []) t ∧
    t.run = .faulted :=
  ⟨_, steps_two rfl (by decide), by decide⟩

/-- HistoricalFormatLoads: code and data, a first and a last word of each. -/
theorem witness_historical : Config.default.entryPc % 4 = 0 ∧
    Config.default.entryPc + 4 * ([0x00000000#32, 0x14000001#32].length + 1) ≤ 2 ^ 62 ∧
    0xFEDEFFE7#32 ∉ [0x00000000#32, 0x14000001#32] ∧
    ([0x00000000#32, 0x14000001#32] ++ [0xFEDEFFE7#32])[2]? = some 0xFEDEFFE7#32 ∧
    [0x0000000A#32, 0xFFFFFFFF#32][1]? = some 0xFFFFFFFF#32 := by decide

/-- DecodeInvertsEncode, WellFormedMeansInDomain: fields at the ends of their domains. -/
theorem witness_well_formed :
    Instr.WellFormed (.asr 31 31 31 63) ∧ Instr.WellFormed (.addi 31 31 (-2048)) ∧
    Instr.WellFormed (.stur 31 31 255) ∧ Instr.WellFormed (.b (-33554432)) ∧
    Instr.WellFormed (.cbz 31 262143) ∧ Instr.WellFormed (.movk 31 65535 3) ∧ Instr.WellFormed .nop := by decide

/-- EncodeInvertsDecode: a word of another format, and a D-format word with the ignored bits set. -/
theorem witness_decoded_words :
    decodeInstr 0xD37F0823#32 = some (.lsl 3 1 31 2) ∧ Instr.format (.lsl 3 1 31 2) ≠ .d ∧
    decodeInstr 0xF8000CA3#32 = some (.stur 3 5 0) ∧ Instr.format (.stur 3 5 0) = .d := by decide

/-- BitwiseOperations, AddAndSubWrap, ShiftsByConstant, ImmediateArithmetic: operands at both ends, and out of domain. -/
theorem witness_r_operands : (0 < 32 ∧ 31 < 32 ∧ 0 < 64 ∧ 63 < 64) ∧
    ¬ FieldsInDomain (.and 0 0 0 64) ∧ ¬ FieldsInDomain (.asr 31 32 0 0) ∧ ¬ FieldsInDomain (.sub 0 0 0 (-1)) := by
  simp [FieldsInDomain]
theorem witness_i_operands : ((-2048 : Int) ≤ -2048 ∧ (-2048 : Int) ≤ 2047 ∧ (2047 : Int) ≤ 2047 ∧ 31 < 32) ∧
    ¬ FieldsInDomain (.addi 0 0 2048) ∧ ¬ FieldsInDomain (.subi 0 0 (-2049)) := by
  simp [FieldsInDomain]

/-- LsrDiffersFromAsrOnNegatives: a negative register, at the ends of the shift amounts. -/
theorem witness_negative_register :
    ((recorded .nop).writeReg 1 0x8000000000000000).cfg.r31IsZero = false ∧
    (((recorded .nop).writeReg 1 0x8000000000000000).readReg 1).toInt < 0 ∧ 0 < 1 ∧ 63 < 64 := by decide

/-- LdurLoadsWholeCell, SturStoresWholeRegister: an aligned and a misaligned base, `mem_hi` none and some, fields out of
domain. -/
theorem witness_d_operands : (roundTrip.readReg 2).toNat % 4 = 0 ∧ (p3.writeReg 1 130).memHi = some 132 ∧
    ((p3.writeReg 1 130).readReg 1).toNat % 4 ≠ 0 ∧ roundTrip.memHi = none ∧
    ((-256 : Int) ≤ -256 ∧ (255 : Int) ≤ 255) := by decide
theorem witness_d_domain : ¬ FieldsInDomain (.ldur 32 0 0) ∧ ¬ FieldsInDomain (.stur 0 0 (-257)) := by
  simp [FieldsInDomain]

/-- BranchIsRelativeToItself, ConditionalBranches: offsets at both ends, a tested register that is zero and one that is not,
fields out of domain. -/
theorem witness_branches : ((-33554432 : Int) ≤ -33554432 ∧ (33554431 : Int) ≤ 33554431) ∧
    ((-262144 : Int) ≤ -262144 ∧ (262143 : Int) ≤ 262143) ∧ (roundTrip.readReg 0).toNat = 0 ∧
    (roundTrip.readReg 1).toNat ≠ 0 := by decide
theorem witness_branch_domain : ¬ FieldsInDomain (.b 33554432) ∧ ¬ FieldsInDomain (.cbz 0 (-262145)) ∧
    ¬ FieldsInDomain (.cbnz 32 0) := by
  simp [FieldsInDomain]

/-- MovzClearsOtherChunks, MovkKeepsOtherChunks, FourMovesBuildAnyConstant: fields at the ends and out of domain. -/
theorem witness_im_operands : (31 < 32 ∧ 65535 < 65536 ∧ 3 < 4) ∧ ¬ FieldsInDomain (.movz 0 65536 0) ∧
    ¬ FieldsInDomain (.movk 0 0 4) ∧ ¬ (State.reset.cfg.r31IsZero = true ∧ 31 = 31) := by
  simp [FieldsInDomain, State.reset, Config.default]

/-- NopOnlyAdvances, BreakAdvancesAndHalts, BranchToSelfRunsForever: running machines that fetch NOP, BREAK, `B #0`. -/
theorem witness_fetches : (recorded .nop).Fetches .nop ∧ (recorded .brk).Fetches .brk ∧
    (recorded (.b 0)).Fetches (.b 0) ∧ (recorded (.b 0)).run = .running :=
  ⟨fetches_of rfl rfl rfl, fetches_of rfl rfl rfl, fetches_of rfl rfl rfl, rfl⟩

/-- OnlyDestinationRegisterChanges, OnlyStoredCellChanges, InstructionsLeaveEngineRegisters, PcAdvancesByFourOrBranches: next
states of a load, a store (one cell stored to, another listed), a BREAK, a branch, and a malformed instruction. -/
theorem witness_exec_cases :
    seen (exec (.ldur 3 2 0) roundTrip) (·.run) = some .running ∧ destination (.ldur 3 2 0) ≠ some 4 ∧
    seen (exec (.stur 1 2 0) { roundTrip with mem := [(132, 1)] }) (·.run) = some .running ∧
    storeAddress roundTrip (.stur 1 2 0) ≠ some 132 ∧ storeAddress roundTrip (.ldur 3 2 0) = none ∧
    (Memory.entry [(132, 1)] 132).isSome = true ∧
    seen (exec .brk roundTrip) (·.run) = some .halted ∧
    seen (exec (.cbnz 1 (-2)) roundTrip) (·.run) = some .running ∧ Instr.WellFormed (.cbnz 1 (-2)) ∧
    seen (exec (.add 32 0 0 0) roundTrip) (·.run) = some .faulted := by decide

/-- OnlySourceRegistersMatter: two states that agree on the sources of an ADD and not elsewhere. -/
theorem witness_same_sources :
    (∀ j ∈ sources (.add 3 1 2 0), State.readReg { roundTrip with x := roundTrip.x.setIfInBounds 5 9 } j =
      roundTrip.readReg j) ∧
    seen (exec (.add 3 1 2 0) roundTrip) (·.readReg 3) = some 135 ∧
    seen (exec (.add 3 1 2 0) { roundTrip with x := roundTrip.x.setIfInBounds 5 9 }) (·.readReg 5) = some 9 := by decide

/-- PcDoesNotWrapIntoStore: a step from a valid address to a valid address of a contiguous store. -/
theorem witness_pc_in_store : ∃ r q, (nopThen [0xFEDEFFE7#32]).ifetch 96 = some r ∧
    (nopThen [0xFEDEFFE7#32]).pc.toNat = 96 ∧
    step (nopThen [0xFEDEFFE7#32]) = .next (after (nopThen [0xFEDEFFE7#32])) ∧
    (after (nopThen [0xFEDEFFE7#32])).run ≠ .faulted ∧
    (after (nopThen [0xFEDEFFE7#32])).ifetch (after (nopThen [0xFEDEFFE7#32])).pc.toNat = some q ∧
    (nopThen [0xFEDEFFE7#32]).istore = [(96, decode 96 0x00000000#32), (100, decode 100 0xFEDEFFE7#32)] :=
  ⟨_, _, rfl, by decide, step_after rfl, by decide, rfl, rfl⟩

/-- Register31FollowsParameter: both settings, at register 31 and beside it. -/
theorem witness_register_31 : (recorded .nop).cfg.r31IsZero = false ∧ (recordedZ (.addi 31 31 7)).cfg.r31IsZero = true ∧
    (recordedZ (.addi 31 31 7)).x[31] = 0 ∧ 30 ≠ 31 ∧
    step (recordedZ (.addi 31 31 7)) = .next (after (recordedZ (.addi 31 31 7))) :=
  ⟨rfl, rfl, by decide, by decide, step_after rfl⟩

/-- MemoryWriteThenRead, MemHiNeverDecreases: another address, `mem_hi` none, below, at and above the address, no entry. -/
theorem witness_memory : (132 : Word) ≠ 128 ∧ roundTrip.memHi = none ∧ p3.memHi = some 132 ∧
    (136 : Word).toInt > 132 ∧ (132 : Word).toInt ≤ 132 ∧ Memory.entry p3.mem (136 : Word).toInt = none ∧
    (Memory.entry p3.mem 132).isSome = true ∧ step p3 = .next (after p3) :=
  ⟨by decide, rfl, by decide, by decide, by decide, by decide, by decide, step_after rfl⟩

theorem after_no_store (a : Int) : ∀ m < 1, ∀ u, Steps m (after roundTrip) u → ¬ u.StoresTo a := by
  rintro m hm u hs ⟨rt, rn, offset, ⟨r, hf, -, hi⟩, -⟩
  obtain rfl : m = 0 := by omega
  obtain rfl : u = after roundTrip := hs
  obtain rfl : decode 100 0x00000000#32 = r := Option.some.inj hf
  cases hi

/-- MemoryOrderIsProgramOrder, StoreThenLoadReturnsValue: STUR, one step that stores nothing, LDUR of the same address. -/
theorem witness_round_trip :
    roundTrip.Fetches (.stur 1 2 0) ∧ step roundTrip = .next (after roundTrip) ∧ (after roundTrip).run ≠ .faulted ∧
    Steps 1 (after roundTrip) (after (after roundTrip)) ∧
    (∀ m < 1, ∀ u, Steps m (after roundTrip) u → ¬ u.StoresTo (roundTrip.effectiveAddress 2 0).toInt) ∧
    (after (after roundTrip)).Fetches (.ldur 3 2 0) ∧
    (after (after roundTrip)).effectiveAddress 2 0 = roundTrip.effectiveAddress 2 0 ∧
    ¬ ((after (after roundTrip)).cfg.r31IsZero = true ∧ 3 = 31) ∧
    step (after (after roundTrip)) = .next (after (after (after roundTrip))) ∧
    (after (after (after roundTrip))).run ≠ .faulted :=
  ⟨fetches_of rfl rfl rfl, step_after rfl, by decide, steps_one (by decide), after_no_store _,
    fetches_of rfl rfl rfl, by decide, by decide, step_after (by decide), by decide⟩

/-- StepRunsDecodedInstruction: a decoded word whose instruction executes, and one whose instruction raises a condition. -/
theorem witness_decoded_step :
    (p3.run = .running ∧ p3.ifetch p3.pc.toNat = some (decode p3.pc.toNat 0x91020001#32) ∧
      decodeInstr 0x91020001#32 = some (.addi 1 0 128) ∧ seen (exec (.addi 1 0 128) p3) (·.run) = some .running) ∧
    (((placed 96 0xF80000A3#32).writeReg 5 114).ifetch 96 = some (decode 96 0xF80000A3#32) ∧
      decodeInstr 0xF80000A3#32 = some (.stur 3 5 0) ∧
      seen (exec (.stur 3 5 0) ((placed 96 0xF80000A3#32).writeReg 5 114)) (·.run) = some .faulted) := by decide

/-- StepExistsIffRunning, RunStateTransitions, ExecutedStepEmitsOneBlock, TraceTextGrowsByWholeBlocks: a step that goes on, one
that halts, one that faults, from states without a fault record; and states of every run state. -/
theorem witness_step_ends :
    seen (step p3) (·.run) = some .running ∧ p3.fault = none ∧
    seen (step (recorded .brk)) (·.run) = some .halted ∧ (recorded .brk).fault = none ∧
    seen (step State.reset) (·.run) = some .faulted ∧ State.reset.fault = none ∧
    ({ State.reset with run := .halted } : State).run = .halted ∧
    ({ State.reset with run := .faulted } : State).run = .faulted := by decide

/-- TextNeverInfluencesExecution: two machines with different texts, and a step of one of them. -/
theorem witness_other_text :
    AgreeButForText (recorded .nop) { recorded .nop with istore := [(96, ⟨96, ['X'], .instr .nop⟩)] } ∧
    Steps 1 (recorded .nop) (after (recorded .nop)) :=
  ⟨⟨rfl, rfl⟩, steps_one rfl⟩

/-- FetchOutsideStoreFaults, UnsupportedRecordFaults, FirstFailingCheckIsReported (first two clauses): a running machine with
nothing at `pc`; one with an unsupported record whose `addr` is wrong as well. -/
theorem witness_bad_fetch : State.reset.run = .running ∧ State.reset.ifetch State.reset.pc.toNat = none ∧
    step State.reset = .next (after State.reset) ∧
    ({ State.reset with istore := [(96, ⟨100, [], .unsupported 1⟩)] } : State).ifetch 96 =
      some ⟨100, [], .unsupported 1⟩ ∧
    step { State.reset with istore := [(96, ⟨100, [], .unsupported 1⟩)] } =
      .next (after { State.reset with istore := [(96, ⟨100, [], .unsupported 1⟩)] }) ∧ State.reset.fault = none ∧
    (after { State.reset with istore := [(96, ⟨100, [], .unsupported 1⟩)] }).fault =
      some ⟨.unsupportedInstruction, 96, .unsupported 100 1⟩ :=
  ⟨rfl, rfl, step_after rfl, rfl, step_after rfl, rfl, by decide⟩

/-- MalformedRecordFaults: a wrong `addr`, and a field out of its domain. -/
theorem witness_malformed :
    ({ State.reset with istore := [(96, ⟨100, [], .instr .nop⟩)] } : State).ifetch 96 = some ⟨100, [], .instr .nop⟩ ∧
    100 ≠ 96 ∧ (recorded (.lsl 3 1 0 64)).ifetch 96 = some ⟨96, [], .instr (.lsl 3 1 0 64)⟩ ∧
    ¬ Instr.WellFormed (.lsl 3 1 0 64) ∧ (recorded (.lsl 3 1 0 64)).run = .running := by decide

/-- MisalignedAccessFaults, FatalConditionsArePrecise, FirstFailingCheckIsReported (last clause): a well-formed access with a
misaligned base, and its faulting step. -/
theorem witness_misaligned :
    ((recorded (.ldur 3 5 (-256))).writeReg 5 1).Fetches (.ldur 3 5 (-256)) ∧
    Instr.WellFormed (.ldur 3 5 (-256)) ∧ (((recorded (.ldur 3 5 (-256))).writeReg 5 1).readReg 5).toNat % 4 ≠ 0 ∧
    step ((recorded (.ldur 3 5 (-256))).writeReg 5 1) = .next (after ((recorded (.ldur 3 5 (-256))).writeReg 5 1)) ∧
    (after ((recorded (.ldur 3 5 (-256))).writeReg 5 1)).run = .faulted ∧
    ((recorded (.ldur 3 5 (-256))).writeReg 5 1).fault = none ∧
    aligned (((recorded (.ldur 3 5 (-256))).writeReg 5 1).effectiveAddress 5 (-256)) = false ∧
    ((after ((recorded (.ldur 3 5 (-256))).writeReg 5 1)).fault.map (·.cause)) = some .misalignedDataAddress :=
  ⟨fetches_of rfl rfl rfl, by decide, by decide, step_after rfl, by decide, rfl, by decide, by decide⟩

/-- A misaligned LDUR whose record's `addr` is wrong as well. -/
def wrongAddrMisaligned : State :=
  { (recorded (.ldur 3 5 0)).writeReg 5 1 with istore := [(96, ⟨100, [], .instr (.ldur 3 5 0)⟩)] }

/-- FirstFailingCheckIsReported (third clause): R197's own D record with `rn = 40`; a transfer register out of range, and a wrong
`addr`, each on a misaligned effective address. Its last clause has the case of `witness_misaligned`. -/
theorem witness_two_conditions :
    (recorded (.ldur 3 40 1)).ifetch 96 = some ⟨96, [], .instr (.ldur 3 40 1)⟩ ∧ ¬ Instr.WellFormed (.ldur 3 40 1) ∧
    step (recorded (.ldur 3 40 1)) = .next (after (recorded (.ldur 3 40 1))) ∧
    ¬ Instr.WellFormed (.ldur 32 5 0) ∧
    aligned (((recorded (.ldur 32 5 0)).writeReg 5 1).effectiveAddress 5 0) = false ∧
    step ((recorded (.ldur 32 5 0)).writeReg 5 1) = .next (after ((recorded (.ldur 32 5 0)).writeReg 5 1)) ∧
    wrongAddrMisaligned.ifetch 96 = some ⟨100, [], .instr (.ldur 3 5 0)⟩ ∧ 100 ≠ wrongAddrMisaligned.pc.toNat ∧
    aligned (wrongAddrMisaligned.effectiveAddress 5 0) = false ∧
    step wrongAddrMisaligned = .next (after wrongAddrMisaligned) :=
  ⟨rfl, by decide, step_after rfl, by decide, by decide, step_after rfl, rfl, by decide, by decide, step_after rfl⟩

/-- MemoryDumpCoversDataRegion: `mem_hi` at DATA_BASE, above it, none, and below it, under the invariant. -/
theorem witness_dump : p3.Inv ∧ p3.cfg.entryPc % 4 = 0 ∧ p3.memHi = some 132 ∧ (p3.dataBase : Int) ≤ 132 ∧
    0 < p3.memDump.length ∧ roundTrip.memHi = none ∧
    (after ((placed 96 0xF81000A3#32).writeReg 3 1)).memHi = some (-1024) ∧
    (-1024 : Int) < (after ((placed 96 0xF81000A3#32).writeReg 3 1)).dataBase :=
  ⟨⟨by decide, by decide, by decide, fun h => (by cases h), by decide, by decide⟩, by decide, by decide, by decide,
    by decide, rfl, by decide, by decide⟩

/-- NumeralsAreDecimal, BlockTextHasSpecLines: values of both signs, zero, and a text without a line feed. -/
theorem witness_texts : 0 ≤ (0x7FFFFFFFFFFFFFFF : Word).toInt ∧ (0x8000000000000000 : Word).toInt < 0 ∧
    '\n' ∉ Instr.text (.ldur 6 5 (-1)) := by decide

end Sys2Proof.Tests
end

section
/-! PROOFS. What an instruction and a step can do to each element of the state, from the inversion lemmas `exec_effect` and
`step_cases` (10_state.md). -/

namespace Sys2Proof.Machine

open Sys2Proof.Claims

/-! ### Registers (R12, R13) -/

theorem State.isZeroReg_iff (s : State) (i : Nat) : s.isZeroReg i = true ↔ s.cfg.r31IsZero = true ∧ i = 31 := by
  simp [isZeroReg]

/-- A read after a write, at a register that is not hardwired. -/
theorem State.readReg_writeReg_ordinary {s : State} {i j : Nat} {v : Word} (hi : i < 32) (hj : ¬ s.isZeroReg j = true) :
    (s.writeReg i v).readReg j = if j = i then v else s.readReg j := by
  rw [readReg_writeReg hi, if_neg hj]
  simp only [eq_comm]

theorem State.writeReg_x_other {s : State} {i j : Nat} {v : Word} (h : i ≠ j) : (s.writeReg i v).x[j]? = s.x[j]? := by
  unfold writeReg
  split
  · rfl
  · exact Vector.getElem?_setIfInBounds_ne h

theorem State.readReg_of_x {s t : State} {j : Nat} (hx : t.x[j]? = s.x[j]?) (hc : t.cfg = s.cfg) :
    t.readReg j = s.readReg j := by
  simp [readReg, isZeroReg, hx, hc]

/-- No write reaches the stored value of a hardwired register 31 (R13). -/
theorem State.writeReg_x31 {s : State} (hz : s.cfg.r31IsZero = true) (i : Nat) (v : Word) :
    (s.writeReg i v).x[31] = s.x[31] := by
  by_cases hi : i = 31
  · rw [writeReg_zeroReg ((s.isZeroReg_iff i).2 ⟨hz, hi⟩)]
  · have h := s.writeReg_x_other (v := v) hi
    simpa using h

/-! ### Memory (R20, R21, R34) -/

theorem Memory.entry_write_isSome {m : Memory} {b : Int} (h : (entry m b).isSome = true) (a : Int) (v : Word) :
    (entry (write m a v) b).isSome = true := by
  rw [entry_write]
  split
  · rfl
  · exact h

theorem le_raiseHi (hi a : Int) : ∃ hi', raiseHi (some hi) a = some hi' ∧ hi ≤ hi' := by
  by_cases h : hi < a
  · exact ⟨a, by simp [raiseHi, h], h.le⟩
  · exact ⟨hi, by simp [raiseHi, h], le_rfl⟩

/-! ### What `exec` can do to the registers, the engine's fields and `pc` -/

/-- The registers after an instruction: as before, or written at its destination (the last column of R12's table). -/
theorem exec_x {i : Instr} {s t : State} (h : exec i s = .next t) :
    t.x = s.x ∨ ∃ rd v, destination i = some rd ∧ t.x = (s.writeReg rd v).x := by
  cases i with
  | and | add | orr | eor | sub | asr | lsr | lsl | addi | subi | movz | movk =>
    rcases State.writeResult_next h with ⟨-, rfl⟩ | ⟨-, rfl⟩
    · exact .inr ⟨_, _, rfl, rfl⟩
    · exact .inl rfl
  | ldur =>
    rcases State.checked_next h with ⟨-, h⟩ | ⟨-, rfl⟩
    · rcases State.alignedAccess_next h with ⟨-, h⟩ | ⟨-, rfl⟩
      · cases h; exact .inr ⟨_, _, rfl, rfl⟩
      · exact .inl rfl
    · exact .inl rfl
  | stur =>
    rcases State.checked_next h with ⟨-, h⟩ | ⟨-, rfl⟩
    · rcases State.alignedAccess_next h with ⟨-, h⟩ | ⟨-, rfl⟩
      · cases h; exact .inl rfl
      · exact .inl rfl
    · exact .inl rfl
  | b =>
    rcases State.checked_next h with ⟨-, h⟩ | ⟨-, rfl⟩
    · cases h; exact .inl rfl
    · exact .inl rfl
  | cbz | cbnz =>
    rcases State.checked_next h with ⟨-, h⟩ | ⟨-, rfl⟩
    · cases h; split <;> exact .inl rfl
    · exact .inl rfl
  | nop | brk => cases h; exact .inl rfl

/-- No effect touches the cycle counter, the trace, the store or the parameters (R17, R22, R25). -/
theorem Effect.engine_fields {s t : State} {i : Instr} (h : Effect s i t) :
    t.cycle = s.cycle ∧ t.trace = s.trace ∧ t.istore = s.istore ∧ t.cfg = s.cfg := by
  cases h <;> simp

/-- How an effect moves the run state: not at all, to halted by BREAK, or to faulted by raising a condition, which leaves
everything else but the fault record (R18, R19, R195). -/
theorem Effect.run_cases {s t : State} {i : Instr} (h : Effect s i t) :
    (t.run = s.run ∧ t.fault = s.fault) ∨ (i = .brk ∧ t.run = .halted ∧ t.fault = s.fault) ∨
      (t.run = .faulted ∧ t.fault.isSome = true ∧ t.x = s.x ∧ t.mem = s.mem ∧ t.memHi = s.memHi ∧ t.pc = s.pc) := by
  cases h with
  | malformed | misaligned => exact .inr (.inr (by simp))
  | register | store | branch | fallThrough => exact .inl (by simp)
  | stop => exact .inr (.inl (by simp))

/-- `q` is `p` moved, modulo 2^64, by a multiple of 4 within the reach of a B offset (R54, R141). -/
def WithinReach (p q : Word) : Prop :=
  ∃ d : Int, -134217728 ≤ d ∧ d ≤ 134217724 ∧ d % 4 = 0 ∧ q = p + wrap64 d

/-- An effect that raises nothing moves `pc` within the reach of B, the advance by 4 among such moves (R15, R84, R140). -/
theorem Effect.pc_withinReach {s t : State} {i : Instr} (h : Effect s i t) (ht : t.run ≠ .faulted) :
    WithinReach s.pc t.pc := by
  cases h with
  | malformed | misaligned => exact absurd rfl ht
  | register | store | fallThrough | stop => exact ⟨4, by decide, by decide, by decide, by simp⟩
  | branch _ _ ho =>
    rw [boffOk_iff] at ho
    exact ⟨_, by omega, by omega, by omega, rfl⟩

/-- Memory and `mem_hi` of `t` are those of `s`, or as one write leaves them (R21, R34). -/
def AtMostOneWrite (s t : State) : Prop :=
  (t.mem = s.mem ∧ t.memHi = s.memHi) ∨ ∃ a v, t.mem = Memory.write s.mem a v ∧ t.memHi = raiseHi s.memHi a

theorem Effect.atMostOneWrite {s t : State} {i : Instr} (h : Effect s i t) : AtMostOneWrite s t := by
  cases h with
  | store => exact .inr ⟨_, _, rfl, rfl⟩
  | _ => exact .inl (by simp)

theorem exec_brk {s t : State} (h : exec .brk s = .next t) : t = s.advance.halt := by cases h; rfl

/-- Executed from running, an instruction halts the machine exactly when it is BREAK (R162). -/
theorem exec_halted_iff {i : Instr} {s t : State} (hrun : s.run = .running) (h : exec i s = .next t) :
    t.run = .halted ↔ i = .brk := by
  constructor
  · intro ht
    rcases (exec_effect h).run_cases with ⟨hr, -⟩ | ⟨hi, -⟩ | ⟨hr, -⟩
    · rw [hr, hrun] at ht; cases ht
    · exact hi
    · rw [hr] at ht; cases ht
  · rintro rfl
    rw [exec_brk h]; rfl

/-- Executed from running without a fault record, an instruction faults the machine exactly when it writes one (R19, R195). -/
theorem exec_faulted_iff {i : Instr} {s t : State} (hrun : s.run = .running) (hf : s.fault = none)
    (h : exec i s = .next t) : t.run = .faulted ↔ t.fault.isSome = true := by
  rcases (exec_effect h).run_cases with ⟨hr, hft⟩ | ⟨-, hr, hft⟩ | ⟨hr, hft, -⟩ <;> simp [hr, hrun, hft, hf]

/-! ### What a step can do -/

/-- A property of the next state holds when a raised condition has it, every effect of an instruction has it, and the end of a
step keeps it. -/
theorem step_elim {s t : State} {P : State → Prop} (h : step s = .next t)
    (hraise : ∀ c info, P (s.raise c info)) (heffect : ∀ i u, Effect s i u → P u)
    (hcommit : ∀ u r, P u → P (u.commit r)) : P t := by
  cases (step_cases h).2 with
  | fetchFailed | unsupported | wrongAddr => exact hraise _ _
  | raised _ _ _ he => exact heffect _ _ (exec_effect he)
  | executed _ _ _ he => exact hcommit _ _ (heffect _ _ (exec_effect he))

theorem step_keeps_store {s t : State} (h : step s = .next t) : t.istore = s.istore ∧ t.cfg = s.cfg := by
  refine step_elim (P := fun u => u.istore = s.istore ∧ u.cfg = s.cfg) h (fun _ _ => ⟨rfl, rfl⟩) ?_ fun _ _ hu => hu
  intro i u hu
  obtain ⟨-, -, hstore, hcfg⟩ := hu.engine_fields
  exact ⟨hstore, hcfg⟩

theorem step_atMostOneWrite {s t : State} (h : step s = .next t) : AtMostOneWrite s t :=
  step_elim h (fun _ _ => .inl ⟨rfl, rfl⟩) (fun _ _ hu => hu.atMostOneWrite) fun _ _ hu => hu

theorem step_pc_withinReach {s t : State} (h : step s = .next t) (ht : t.run ≠ .faulted) : WithinReach s.pc t.pc :=
  step_elim (P := fun u => u.run ≠ .faulted → WithinReach s.pc u.pc) h (fun _ _ hr => absurd rfl hr)
    (fun _ _ hu => hu.pc_withinReach) (fun _ _ hu => hu) ht

theorem step_keeps_x31 {s t : State} (hz : s.cfg.r31IsZero = true) (h : step s = .next t) : t.x[31] = s.x[31] := by
  refine step_elim (P := fun u => u.x[31] = s.x[31]) h (fun _ _ => rfl) ?_ fun _ _ hu => hu
  intro i u hu
  cases hu with
  | register => exact s.writeReg_x31 hz _ _
  | _ => rfl

/-- The instruction fetched is the one of the record found (R82, R83). -/
theorem State.fetches_iff {s : State} {r : Record} {i j : Instr} (hf : s.ifetch s.pc.toNat = some r)
    (hs : r.shape = .instr i) (ha : r.addr = s.pc.toNat) : s.Fetches j ↔ i = j := by
  simp [Fetches, hf, hs, ha]

end Sys2Proof.Machine
end

section
/-! PROOFS. The machine invariant, kept by every operation on the state (R13, R15, R19, R20, R31,
R91). -/

namespace Sys2Proof.Machine.State.Inv

variable {s : State}

theorem raise (h : s.Inv) (c : Cause) (info : FaultInfo) : (s.raise c info).Inv where
  memWf := h.memWf
  memHi := h.memHi
  pcAligned := h.pcAligned
  zeroReg := h.zeroReg
  faultIff := by simp
  labels := h.labels

theorem advance (h : s.Inv) : s.advance.Inv := { h with pcAligned := advance_pc_aligned h.pcAligned }

theorem branch (h : s.Inv) (offset : Int) : (s.branch offset).Inv :=
  { h with pcAligned := branch_pc_aligned h.pcAligned }

theorem writeReg (h : s.Inv) (i : Nat) (v : Word) : (s.writeReg i v).Inv where
  memWf := by simpa using h.memWf
  memHi := by simpa using h.memHi
  pcAligned := by simpa using h.pcAligned
  zeroReg hz := by
    rw [writeReg_cfg] at hz
    rw [s.writeReg_x31 hz]
    exact h.zeroReg hz
  faultIff := by simpa using h.faultIff
  labels := by simpa using h.labels

theorem memWrite (h : s.Inv) {ea : Word} (ha : aligned ea = true) (v : Word) : (s.memWrite ea v).Inv :=
  { h with
    memWf := Memory.write_wf_of_aligned h.memWf ha
    memHi := by rw [memWrite_memHi, memWrite_mem, Memory.highest_write, h.memHi] }

theorem halt (h : s.Inv) (hrun : s.run ≠ .faulted) : s.halt.Inv :=
  have hnone : ¬ s.fault.isSome = true := fun hf => hrun (h.faultIff.1 hf)
  { h with faultIff := by simp only [halt_fault, halt_run, hnone, reduceCtorEq] }

theorem commit (h : s.Inv) (r : Record) : (s.commit r).Inv :=
  have hlabel : (s.tick.snapshot r).cycle = s.cycle + 1 := rfl
  { h with labels := by simp [List.range_succ, h.labels, hlabel] }

theorem effect (h : s.Inv) (hrun : s.run ≠ .faulted) {i : Instr} {t : State} (he : Effect s i t) : t.Inv := by
  cases he with
  | malformed | misaligned => exact h.raise _ _
  | register => exact (h.writeReg _ _).advance
  | store _ ha => exact (h.memWrite ha _).advance
  | branch => exact h.branch _
  | fallThrough => exact h.advance
  | stop => exact h.advance.halt hrun

theorem step (h : s.Inv) {t : State} (hstep : step s = .next t) : t.Inv := by
  have hrun : s.run ≠ .faulted := by rw [(step_cases hstep).1]; decide
  exact step_elim hstep h.raise (fun _ _ => h.effect hrun) fun _ r hu => hu.commit r

end Sys2Proof.Machine.State.Inv
end

section
/-! PROOFS. An instruction executed on two states that differ in registers alone (R12). -/

namespace Sys2Proof.Machine

open Sys2Proof.Claims

/-- The state with other register contents. -/
def State.withRegs (s : State) (y : Vector Word 32) : State := { s with x := y }

/-- Two answers whose next states agree in everything but the registers, and on the register `d` unless a condition was
raised. -/
def AgreeOn (d : Option Nat) (p q : Result) : Prop :=
  ∀ t u, p = .next t → q = .next u → t = u.withRegs t.x ∧
    ∀ j, d = some j → j < 32 → t.run ≠ .faulted → u.readReg j = t.readReg j

variable {s : State} {y : Vector Word 32} {d : Option Nat}

theorem AgreeOn.next {t u : State} (hx : t = u.withRegs t.x)
    (hd : ∀ j, d = some j → j < 32 → t.run ≠ .faulted → u.readReg j = t.readReg j) :
    AgreeOn d (.next t) (.next u) := by
  rintro _ _ ⟨⟩ ⟨⟩
  exact ⟨hx, hd⟩

theorem AgreeOn.raise (c : Cause) (info : FaultInfo) :
    AgreeOn d (.next (s.raise c info)) (.next ((s.withRegs y).raise c info)) :=
  .next rfl fun _ _ _ hr => absurd rfl hr

theorem AgreeOn.checked {p q : Result} (i : Instr) (h : AgreeOn d p q) :
    AgreeOn d (s.checked i p) ((s.withRegs y).checked i q) := by
  by_cases hw : i.WellFormed
  · rwa [State.checked_ok hw, State.checked_ok hw]
  · rw [State.checked_bad hw, State.checked_bad hw]; exact .raise _ _

theorem AgreeOn.alignedAccess {p q : Result} (ea : Word) (h : AgreeOn d p q) :
    AgreeOn d (s.alignedAccess ea p) ((s.withRegs y).alignedAccess ea q) := by
  by_cases ha : aligned ea = true
  · rwa [State.alignedAccess_ok ha, State.alignedAccess_ok ha]
  · rw [State.alignedAccess_bad ha, State.alignedAccess_bad ha]; exact .raise _ _

/-- The same value written to the same register reads alike, hardwired or not (R13). -/
theorem AgreeOn.write (rd : Nat) (v : Word) :
    AgreeOn (some rd) (.next (s.writeReg rd v).advance) (.next ((s.withRegs y).writeReg rd v).advance) := by
  have hz : (s.withRegs y).isZeroReg rd = s.isZeroReg rd := rfl
  refine .next ?_ ?_
  · unfold State.writeReg
    rw [hz]
    split <;> rfl
  · rintro _ ⟨⟩ hj -
    rw [State.readReg_congr (State.advance_x _) (State.advance_cfg _),
      State.readReg_congr (State.advance_x _) (State.advance_cfg _), State.readReg_writeReg hj,
      State.readReg_writeReg hj, hz]
    simp

theorem AgreeOn.result (i : Instr) (rd : Nat) (v : Word) :
    AgreeOn (some rd) (s.writeResult i rd v) ((s.withRegs y).writeResult i rd v) :=
  .checked i (.write rd v)

theorem AgreeOn.branchIf (taken : Bool) (offset : Int) :
    AgreeOn none (.next (if taken then s.branch offset else s.advance))
      (.next (if taken then (s.withRegs y).branch offset else (s.withRegs y).advance)) := by
  cases taken <;> exact .next rfl nofun

/-- Register contents outside an instruction's sources (the middle column of R12's table) decide nothing but themselves. -/
theorem exec_agreeOn {i : Instr} (h : ∀ j ∈ sources i, (s.withRegs y).readReg j = s.readReg j) :
    AgreeOn (destination i) (exec i s) (exec i (s.withRegs y)) := by
  cases i with
  | and rd rn rm | add rd rn rm | orr rd rn rm | eor rd rn rm | sub rd rn rm =>
    have hn := h rn (by simp [sources])
    have hm := h rm (by simp [sources])
    simp only [exec, execAnd, execAdd, execOrr, execEor, execSub, hn, hm]
    exact .result _ rd _
  | asr rd rn | lsr rd rn | lsl rd rn | addi rd rn | subi rd rn =>
    have hn := h rn (by simp [sources])
    simp only [exec, execAsr, execLsr, execLsl, execAddi, execSubi, hn]
    exact .result _ rd _
  | movz rd => exact .result _ rd _
  | movk rd =>
    have hd := h rd (by simp [sources])
    simp only [exec, execMovk, hd]
    exact .result _ rd _
  | ldur rt rn offset =>
    have hn := h rn (by simp [sources])
    simp only [exec, execLdur, State.effectiveAddress, hn]
    exact .checked _ (.alignedAccess _ (.write rt _))
  | stur rt rn offset =>
    have hn := h rn (by simp [sources])
    have ht := h rt (by simp [sources])
    simp only [exec, execStur, State.effectiveAddress, hn, ht]
    exact .checked _ (.alignedAccess _ (.next rfl nofun))
  | b => exact .checked _ (.next rfl nofun)
  | cbz rt | cbnz rt =>
    have ht := h rt (by simp [sources])
    simp only [exec, execCbz, execCbnz, State.cbzTaken, State.cbnzTaken, ht]
    exact .checked _ (.branchIf _ _)
  | nop | brk => exact .next rfl nofun

end Sys2Proof.Machine
end

section
/-! PROOFS. A valid instruction address is far below the 64-bit wrap (R15, R39). -/

namespace Sys2Proof.Machine

theorem StoreOk.lookup_bounded {cfg : Config} {prog : Store} (h : StoreOk cfg prog) {a : Nat} {r : Record}
    (hl : Store.lookup prog a = some r) : a < 2 ^ 62 := by
  obtain ⟨k, hk⟩ := List.mem_iff_getElem?.1 (Store.mem_of_lookup hl)
  have hlt : k < prog.length := (List.getElem?_eq_some_iff.1 hk).1
  have haddr : a = cfg.entryPc + 4 * k := (h.contiguous k _ hk).1
  have hbound := h.bounded
  omega

/-- An offset of a branch added to a low address does not wrap when the result is a low address again. -/
theorem toNat_add_wrap64 {p : Word} {d : Int} (hp : p.toNat < 2 ^ 62) (hq : (p + wrap64 d).toNat < 2 ^ 62)
    (hlo : -134217728 ≤ d) (hhi : d ≤ 134217724) : ((p + wrap64 d).toNat : Int) = p.toNat + d := by
  rw [BitVec.toNat_add, BitVec.toNat_ofInt] at hq ⊢
  omega

end Sys2Proof.Machine
end

section
/-! PROOFS. The obligations on the state (10_state.md), settled. -/

namespace Sys2Proof.Proofs

open Sys2Proof.Machine Sys2Proof.Claims

/-- Settles O5: each operation on the state keeps the invariant, and a step is made of these operations. -/
theorem everyStepKeepsInvariant : Obligations.EveryStepKeepsInvariant :=
  fun _ _ hinv hstep => hinv.step hstep

/-- Settles O28, by the one register an instruction can write. -/
theorem onlyDestinationRegisterChanges : Obligations.OnlyDestinationRegisterChanges := by
  intro i s t j h hj
  obtain ⟨-, -, -, hcfg⟩ := (exec_effect h).engine_fields
  have hx : t.x[j]? = s.x[j]? := by
    rcases exec_x h with hx | ⟨rd, v, hd, hx⟩
    · rw [hx]
    · rw [hx]
      exact State.writeReg_x_other fun e => hj (e ▸ hd)
  exact ⟨State.readReg_of_x hx hcfg, hx⟩

/-- Settles O29, by the agreement of the two executions, instruction by instruction. -/
theorem onlySourceRegistersMatter : Obligations.OnlySourceRegistersMatter := by
  intro i s y t u hsrc ht hu
  obtain ⟨hrest, hdest⟩ := exec_agreeOn (y := y) hsrc t u ht hu
  exact ⟨hrest.symm, fun j hd hj _ hrun => hdest j hd hj hrun⟩

/-- Settles O31, by the effects an instruction can have. -/
theorem instructionsLeaveEngineRegisters : Obligations.InstructionsLeaveEngineRegisters := by
  intro i s t h
  obtain ⟨hcycle, htrace, hstore, hcfg⟩ := (exec_effect h).engine_fields
  exact ⟨hcycle, htrace, hstore, hcfg, (exec_effect h).run_cases⟩

/-- Settles O32: the effects give every instruction that is no branch, the branches' own meanings the rest. -/
theorem pcAdvancesByFourOrBranches : Obligations.PcAdvancesByFourOrBranches := by
  intro i s t hw h ht
  refine ⟨fun hb hcb => ?_, ?_, ?_⟩
  · cases exec_effect h with
    | malformed hbad => exact absurd hw hbad
    | misaligned => exact absurd rfl ht
    | branch _ hfmt => exact absurd hfmt (not_or.2 ⟨hb, hcb⟩)
    | register | store | fallThrough | stop => simp
  · rintro offset rfl
    rcases State.checked_next h with ⟨-, h⟩ | ⟨hbad, -⟩
    · cases h; rfl
    · exact absurd hw hbad
  · rintro rt offset (rfl | rfl)
    all_goals
      rcases State.checked_next h with ⟨-, h⟩ | ⟨hbad, -⟩
      · cases h
        split
        · exact .inr rfl
        · exact .inl rfl
      · exact absurd hw hbad

/-- Settles O33: both addresses are below 2^62, and no branch reaches far enough to wrap between them. -/
theorem pcDoesNotWrapIntoStore : Obligations.PcDoesNotWrapIntoStore := by
  intro s t r q hok hr hstep ht hq
  obtain ⟨hstore, -⟩ := step_keeps_store hstep
  obtain ⟨d, hlo, hhi, h4, hpc⟩ := step_pc_withinReach hstep ht
  have hs : s.pc.toNat < 2 ^ 62 := hok.lookup_bounded hr
  rw [State.ifetch, hstore] at hq
  have ht : t.pc.toNat < 2 ^ 62 := hok.lookup_bounded hq
  rw [hpc] at ht ⊢
  exact ⟨d, hlo, hhi, h4, toNat_add_wrap64 hs ht hlo hhi⟩

/-- Settles O34, by the read after a write under either setting and the frame of the stored register 31. -/
theorem register31FollowsParameter : Obligations.Register31FollowsParameter := by
  refine ⟨fun s i j v hz hi _ => ?ordinary, fun s i j v hz hi _ => ⟨?reads_zero, ?discards, fun hne => ?beside⟩,
    fun s t hz h31 hstep => ?stays_zero⟩
  case ordinary =>
    have hj : ¬ s.isZeroReg j = true := by simp [State.isZeroReg_iff, hz]
    exact State.readReg_writeReg_ordinary hi hj
  case reads_zero => exact State.readReg_zeroReg ((s.isZeroReg_iff 31).2 ⟨hz, rfl⟩)
  case discards => exact State.writeReg_zeroReg ((s.isZeroReg_iff 31).2 ⟨hz, rfl⟩)
  case beside =>
    by_cases hj : s.isZeroReg j = true
    · obtain ⟨-, rfl⟩ := (s.isZeroReg_iff j).1 hj
      rw [State.readReg_writeReg hi, if_pos hj, if_neg (Ne.symm hne), State.readReg_zeroReg hj]
    · exact State.readReg_writeReg_ordinary hi hj
  case stays_zero => rw [step_keeps_x31 hz hstep, h31]

/-- Settles O36: a step leaves memory and `mem_hi` or makes one write. -/
theorem memHiNeverDecreases : Obligations.MemHiNeverDecreases := by
  intro s t hi hstep hhi
  rcases step_atMostOneWrite hstep with ⟨hmem, hmemHi⟩ | ⟨a, v, hmem, hmemHi⟩
  · rw [hmem, hmemHi]
    exact ⟨⟨hi, hhi, le_rfl⟩, fun _ h => h⟩
  · rw [hmem, hmemHi, hhi]
    exact ⟨le_raiseHi hi a, fun _ h => Memory.entry_write_isSome h a v⟩

/-- Settles O41, by the cases of a step. -/
theorem runStateTransitions : Obligations.RunStateTransitions := by
  intro s t hfault hstep
  obtain ⟨hrun, hcase⟩ := step_cases hstep
  refine ⟨hrun, ?_⟩
  cases hcase with
  | fetchFailed hf => simp [State.Fetches, hf]
  | unsupported hf hs => simp [State.Fetches, hf, hs]
  | wrongAddr hf hs ha => simp [State.Fetches, hf, ha]
  | raised hf hs ha he | executed hf hs ha he =>
    have hhalt := (exec_halted_iff hrun he).trans (State.fetches_iff hf hs ha).symm
    have hfaulted := exec_faulted_iff hrun hfault he
    exact ⟨hhalt, hfaulted⟩

end Sys2Proof.Proofs
end

section
/-! PROOFS. Where an instruction and a step can write memory, and what any number of steps keeps (20_memory.md R33, R34, R42,
R44). -/

namespace Sys2Proof.Machine

open Sys2Proof.Claims

/-! ### The one cell an instruction can write (R33, R34) -/

/-- An effect leaves memory and `mem_hi`, or makes the one write at its instruction's store address. -/
theorem Effect.mem_cases {s t : State} {i : Instr} (h : Effect s i t) :
    (t.mem = s.mem ∧ t.memHi = s.memHi) ∨ ∃ a v, storeAddress s i = some a ∧ t.mem = Memory.write s.mem a v := by
  cases h with
  | store => exact .inr ⟨_, _, rfl, rfl⟩
  | _ => exact .inl (by simp)

theorem Effect.entry_eq {s t : State} {i : Instr} {a : Int} (h : Effect s i t) (ha : storeAddress s i ≠ some a) :
    Memory.entry t.mem a = Memory.entry s.mem a := by
  rcases h.mem_cases with ⟨hmem, -⟩ | ⟨b, v, hb, hmem⟩
  · rw [hmem]
  · have hne : b ≠ a := fun e => ha (e ▸ hb)
    rw [hmem, Memory.entry_write, if_neg hne]

/-- A write or none at all: either way no entry disappears (R21). -/
theorem AtMostOneWrite.entry_isSome {s t : State} (h : AtMostOneWrite s t) {a : Int}
    (ha : (Memory.entry s.mem a).isSome = true) : (Memory.entry t.mem a).isSome = true := by
  rcases h with ⟨hmem, -⟩ | ⟨b, v, hmem, -⟩
  · rwa [hmem]
  · rw [hmem]
    exact Memory.entry_write_isSome ha b v

/-- A STUR that raises nothing is its write and the advance of `pc` (R132). -/
theorem exec_stur {s t : State} {rt rn : Nat} {offset : Int} (h : exec (.stur rt rn offset) s = .next t)
    (ht : t.run ≠ .faulted) : t = (s.memWrite (s.effectiveAddress rn offset) (s.readReg rt)).advance := by
  rcases State.checked_next h with ⟨-, h⟩ | ⟨-, rfl⟩
  · rcases State.alignedAccess_next h with ⟨-, h⟩ | ⟨-, rfl⟩
    · cases h; rfl
    · exact absurd rfl ht
  · exact absurd rfl ht

/-! ### One step -/

/-- A step that ends without a fatal condition executed the fetched instruction and committed it (R81). -/
theorem step_of_fetches {s t : State} {i : Instr} (hi : s.Fetches i) (h : step s = .next t) (ht : t.run ≠ .faulted) :
    ∃ u r, exec i s = .next u ∧ u.run ≠ .faulted ∧ t = u.commit r := by
  cases (step_cases h).2 with
  | fetchFailed | unsupported | wrongAddr => exact absurd rfl ht
  | raised _ _ _ _ hfault => exact absurd hfault ht
  | executed hf hs ha he hok =>
    obtain rfl := (State.fetches_iff hf hs ha).1 hi
    exact ⟨_, _, he, hok, rfl⟩

/-- The fetched instruction's store address is the one the state stores to. -/
theorem State.StoresTo.of_storeAddress {s : State} {i : Instr} {a : Int} (hi : s.Fetches i)
    (h : storeAddress s i = some a) : s.StoresTo a := by
  cases i with
  | stur rt rn offset => exact ⟨rt, rn, offset, hi, Option.some.inj h⟩
  | _ => cases h

/-- A step that does not store to an address keeps the entry there, or its absence. -/
theorem step_entry_eq {s t : State} {a : Int} (h : step s = .next t) (ha : ¬ s.StoresTo a) :
    Memory.entry t.mem a = Memory.entry s.mem a := by
  cases (step_cases h).2 with
  | fetchFailed | unsupported | wrongAddr => rfl
  | raised hf hs haddr he | executed hf hs haddr he =>
    have hfetch := (State.fetches_iff hf hs haddr).2 rfl
    exact (exec_effect he).entry_eq fun hstore => ha (.of_storeAddress hfetch hstore)

/-! ### Any number of steps -/

/-- What every step from a state with `Q` keeps, a run keeps when every state it leaves has `Q`. -/
theorem Steps.keeps {α : Type} {f : State → α} {Q : State → Prop}
    (hstep : ∀ u v, Q u → step u = .next v → f v = f u) {n : Nat} {s t : State} (h : Steps n s t)
    (hQ : ∀ k < n, ∀ u, Steps k s u → Q u) : f t = f s := by
  induction n generalizing s with
  | zero => exact congrArg f h
  | succ n ih =>
    obtain ⟨u, hsu, hut⟩ := h
    have hfirst : f u = f s := hstep s u (hQ 0 n.succ_pos s rfl) hsu
    have hrest : f t = f u := ih hut fun k hk v hv => hQ (k + 1) (Nat.succ_lt_succ hk) v ⟨u, hsu, hv⟩
    exact hrest.trans hfirst

end Sys2Proof.Machine
end

section
/-! PROOFS. The obligations on memory (20_memory.md), settled. -/

namespace Sys2Proof.Proofs

open Sys2Proof.Machine Sys2Proof.Claims

/-- Settles O37: the STUR's own write puts the value there, and by induction over the steps nothing else reaches the cell. -/
theorem memoryOrderIsProgramOrder : Obligations.MemoryOrderIsProgramOrder := by
  refine ⟨fun s t rt rn offset hi hstep ht => ?_, fun n s t a hsteps hno => ?_⟩
  · obtain ⟨u, r, hexec, hu, rfl⟩ := step_of_fetches hi hstep ht
    rw [exec_stur hexec hu]
    simp [Memory.entry_write]
  · exact hsteps.keeps (f := fun u => Memory.entry u.mem a) (fun _ _ hu h => step_entry_eq h hu) hno

/-- Settles O6, by induction over the steps: each keeps the store, and a fetch reads nothing else. -/
theorem noStepChangesInstructions : Obligations.NoStepChangesInstructions := by
  intro n s t hsteps
  have hkeep : (t.istore, t.cfg) = (s.istore, s.cfg) :=
    hsteps.keeps (f := fun u => (u.istore, u.cfg)) (Q := fun _ => True)
      (fun _ _ _ h => Prod.ext (step_keeps_store h).1 (step_keeps_store h).2) fun _ _ _ _ => trivial
  obtain ⟨hstore, hcfg⟩ := Prod.mk.inj hkeep
  exact ⟨fun a => by rw [State.ifetch, State.ifetch, hstore], hstore, hcfg⟩

/-- Settles O30, by the one cell an instruction can write. -/
theorem onlyStoredCellChanges : Obligations.OnlyStoredCellChanges := by
  intro i s t h
  have heffect := exec_effect h
  refine ⟨fun _ ha => heffect.entry_eq ha, fun hnone => ?_, fun _ => heffect.atMostOneWrite.entry_isSome⟩
  rcases heffect.mem_cases with hsame | ⟨a, v, ha, -⟩
  · exact hsame
  · rw [hnone] at ha; cases ha

/-- Settles O35, by the entries of a written memory. -/
theorem memoryWriteThenRead : Obligations.MemoryWriteThenRead := by
  intro s ea b v
  refine ⟨?entry_there, Memory.read_write_same _ _ _, fun hb => ?elsewhere, fun hhi => ?raised, fun hi hhi hle => ?kept,
    fun hnone => ?reads_zero, fun w hw => ?reads_entry⟩
  case entry_there => simp [Memory.entry_write]
  case elsewhere =>
    have hne : ea.toInt ≠ b.toInt := fun e => hb (BitVec.toInt_inj.1 e).symm
    exact ⟨by rw [State.memWrite_mem, Memory.entry_write, if_neg hne], Memory.read_write_other hne⟩
  case raised =>
    rcases hhi with hhi | ⟨hi, hhi, hlt⟩
    · simp [hhi, raiseHi]
    · simp [hhi, raiseHi, hlt]
  case kept => simp [hhi, raiseHi, hle.not_gt]
  case reads_zero => simp [State.memRead, Memory.read, hnone, Memory.absent]
  case reads_entry => simp [State.memRead, Memory.read, hw]

end Sys2Proof.Proofs
end

section
/-! PROOFS. The texts of the records and the blocks emitted so far decide nothing a step does (30_encoding.md R72;
47_trace_recorder.md R170; 60_exceptions.md R205). -/

namespace Sys2Proof.Machine

open Sys2Proof.Claims

/-! ### An instruction sees neither the store nor the trace -/

/-- The state without its records and its blocks: all that `AgreeButForText` compares as it stands. -/
def State.withoutTexts (s : State) : State := { s with trace := [], istore := [] }

/-- The second answer's next state is the first's, without records and blocks. -/
def FollowsWithoutTexts (p q : Result) : Prop := ∀ t, p = .next t → q = .next t.withoutTexts

variable {s t s' t' : State}

theorem FollowsWithoutTexts.next : FollowsWithoutTexts (.next t) (.next t.withoutTexts) := by
  rintro _ ⟨⟩; rfl

theorem FollowsWithoutTexts.checked {p q : Result} (i : Instr) (h : FollowsWithoutTexts p q) :
    FollowsWithoutTexts (s.checked i p) (s.withoutTexts.checked i q) := by
  by_cases hw : i.WellFormed
  · rwa [State.checked_ok hw, State.checked_ok hw]
  · rw [State.checked_bad hw, State.checked_bad hw]; exact .next

theorem FollowsWithoutTexts.alignedAccess {p q : Result} (ea : Word) (h : FollowsWithoutTexts p q) :
    FollowsWithoutTexts (s.alignedAccess ea p) (s.withoutTexts.alignedAccess ea q) := by
  by_cases ha : aligned ea = true
  · rwa [State.alignedAccess_ok ha, State.alignedAccess_ok ha]
  · rw [State.alignedAccess_bad ha, State.alignedAccess_bad ha]; exact .next

theorem State.writeReg_withoutTexts (s : State) (i : Nat) (v : Word) :
    s.withoutTexts.writeReg i v = (s.writeReg i v).withoutTexts := by
  have hz : s.withoutTexts.isZeroReg i = s.isZeroReg i := rfl
  unfold writeReg
  rw [hz]
  split <;> rfl

theorem FollowsWithoutTexts.write (rd : Nat) (v : Word) :
    FollowsWithoutTexts (.next (s.writeReg rd v).advance) (.next (s.withoutTexts.writeReg rd v).advance) := by
  rw [State.writeReg_withoutTexts]; exact .next

theorem FollowsWithoutTexts.branchIf (taken : Bool) (offset : Int) :
    FollowsWithoutTexts (.next (if taken then s.branch offset else s.advance))
      (.next (if taken then s.withoutTexts.branch offset else s.withoutTexts.advance)) := by
  cases taken <;> exact .next

/-- Without the records and the blocks an instruction does the same (R81, R205). -/
theorem exec_withoutTexts (i : Instr) (s : State) : FollowsWithoutTexts (exec i s) (exec i s.withoutTexts) := by
  cases i with
  | and rd | add rd | orr rd | eor rd | sub rd | asr rd | lsr rd | lsl rd | addi rd | subi rd | movz rd | movk rd =>
    exact .checked _ (.write rd _)
  | ldur rt => exact .checked _ (.alignedAccess _ (.write rt _))
  | stur => exact .checked _ (.alignedAccess _ .next)
  | b => exact .checked _ .next
  | cbz | cbnz => exact .checked _ (.branchIf _ _)
  | nop | brk => exact .next

/-- What a lookup finds, but for the text, is found among the entries without their texts. -/
theorem Store.map_lookup (st : Store) (a : Nat) : (Store.lookup st a).map (fun r => (r.addr, r.shape)) =
    List.lookup a (st.map fun e => (e.1, e.2.addr, e.2.shape)) := by
  induction st with
  | nil => rfl
  | cons e st ih =>
    by_cases he : e.1 = a
    · simp [Store.lookup, he]
    · have hne : (a == e.1) = false := by simpa using Ne.symm he
      simp [Store.lookup, List.lookup_cons, he, hne, ih]

/-! ### A case of a step is the step -/

/-- Each case of a running machine's step is what the step answers, the converse of `step_cases` (R81). -/
theorem StepCase.step (h : StepCase s t) (hrun : s.run = .running) : step s = .next t := by
  cases h with
  | fetchFailed hf => simp [step_running hrun, runningStep, hf]
  | unsupported hf hs => simp [step_running hrun, runningStep, hf, executeRecord, hs]
  | wrongAddr hf hs ha => simp [step_running hrun, runningStep, hf, executeRecord, hs, ha]
  | raised hf hs ha he hfault =>
    simp [step_running hrun, runningStep, hf, executeRecord, hs, ha, he, completeStep, hfault]
  | executed hf hs ha he hok => exact step_executes hrun hf ha hs he hok

end Sys2Proof.Machine

/-! ### Machines that agree but for texts -/

namespace Sys2Proof.Claims.AgreeButForText

open Sys2Proof.Machine

variable {s t s' t' : State}

theorem withoutTexts_eq (h : AgreeButForText s s') : s.withoutTexts = s'.withoutTexts := h.1

theorem pc_eq (h : AgreeButForText s s') : s.pc = s'.pc := (congrArg State.pc h.withoutTexts_eq :)

theorem run_eq (h : AgreeButForText s s') : s.run = s'.run := (congrArg State.run h.withoutTexts_eq :)

theorem raise (h : AgreeButForText s s') (c : Cause) (info : FaultInfo) :
    AgreeButForText (s.raise c info) (s'.raise c info) :=
  ⟨congrArg (State.raise · c info) h.withoutTexts_eq, h.2⟩

/-- The blocks that end two steps may show different texts. -/
theorem commit (h : AgreeButForText s s') (r r' : Record) : AgreeButForText (s.commit r) (s'.commit r') :=
  ⟨congrArg State.tick h.withoutTexts_eq, h.2⟩

/-- A fetch from either machine finds nothing, or records with the same address field and the same shape. -/
theorem ifetch_map (h : AgreeButForText s s') (a : Nat) :
    (s'.ifetch a).map (fun r => (r.addr, r.shape)) = (s.ifetch a).map fun r => (r.addr, r.shape) := by
  rw [State.ifetch, State.ifetch, Store.map_lookup, Store.map_lookup, h.2]

theorem ifetch_none (h : AgreeButForText s s') {a : Nat} (hf : s.ifetch a = none) : s'.ifetch a = none := by
  simpa [hf] using h.ifetch_map a

theorem ifetch_some (h : AgreeButForText s s') {a : Nat} {r : Record} (hf : s.ifetch a = some r) :
    ∃ r', s'.ifetch a = some r' ∧ r'.addr = r.addr ∧ r'.shape = r.shape := by
  simpa [hf] using h.ifetch_map a

/-- An instruction executed on both leads to states that agree again. -/
theorem exec (h : AgreeButForText s s') {i : Instr} (he : Machine.exec i s = .next t) :
    ∃ t', Machine.exec i s' = .next t' ∧ AgreeButForText t t' := by
  obtain ⟨t', he'⟩ := exec_total i s'
  have hsame : (.next t.withoutTexts : Result) = .next t'.withoutTexts := by
    rw [← exec_withoutTexts i s t he, ← exec_withoutTexts i s' t' he', h.withoutTexts_eq]
  obtain ⟨-, -, hstore, -⟩ := (exec_effect he).engine_fields
  obtain ⟨-, -, hstore', -⟩ := (exec_effect he').engine_fields
  exact ⟨t', he', Host.Outcome.next.inj hsame, by rw [hstore, hstore', h.2]⟩

/-- The simulation: every case of the one machine's step is one of the other's. -/
theorem stepCase (h : AgreeButForText s s') (hc : StepCase s t) :
    ∃ t', StepCase s' t' ∧ AgreeButForText t t' := by
  have hpc := h.pc_eq
  cases hc with
  | fetchFailed hf =>
    have hf' := h.ifetch_none hf
    rw [hpc] at hf' ⊢
    exact ⟨_, .fetchFailed hf', h.raise _ _⟩
  | unsupported hf hs =>
    obtain ⟨r', hf', haddr, hshape⟩ := h.ifetch_some hf
    rw [hpc] at hf'
    rw [← haddr]
    exact ⟨_, .unsupported hf' (hshape.trans hs), h.raise _ _⟩
  | wrongAddr hf hs ha =>
    obtain ⟨r', hf', haddr, hshape⟩ := h.ifetch_some hf
    rw [hpc] at hf' ha
    rw [← haddr] at ha ⊢
    exact ⟨_, .wrongAddr hf' (hshape.trans hs) ha, h.raise _ _⟩
  | raised hf hs ha he hfault =>
    obtain ⟨r', hf', haddr, hshape⟩ := h.ifetch_some hf
    obtain ⟨t', he', ht⟩ := h.exec he
    rw [hpc] at hf' ha
    exact ⟨t', .raised hf' (hshape.trans hs) (haddr.trans ha) he' (ht.run_eq ▸ hfault), ht⟩
  | executed hf hs ha he hok =>
    obtain ⟨r', hf', haddr, hshape⟩ := h.ifetch_some hf
    obtain ⟨t', he', ht⟩ := h.exec he
    rw [hpc] at hf' ha
    exact ⟨_, .executed hf' (hshape.trans hs) (haddr.trans ha) he' (ht.run_eq ▸ hok), ht.commit _ _⟩

theorem step (h : AgreeButForText s s') (hstep : Machine.step s = .next t) :
    ∃ t', Machine.step s' = .next t' ∧ AgreeButForText t t' := by
  obtain ⟨hrun, hcase⟩ := step_cases hstep
  obtain ⟨t', hcase', ht⟩ := h.stepCase hcase
  exact ⟨t', hcase'.step (h.run_eq ▸ hrun), ht⟩

end Sys2Proof.Claims.AgreeButForText
end

section
/-! PROOFS. Where the historical input format puts each word (30_encoding.md R69). -/

namespace Sys2Proof.Machine

/-- The first BREAK word ends the code (log 16). -/
theorem splitAtBreak_first {code : List InstrWord} (h : 0xFEDEFFE7#32 ∉ code) (data : List InstrWord) :
    splitAtBreak (code ++ 0xFEDEFFE7#32 :: data) = (code ++ [0xFEDEFFE7#32], data) := by
  induction code with
  | nil => rfl
  | cons w ws ih =>
    obtain ⟨hw, hws⟩ := not_or.1 (mt List.mem_cons.2 h)
    simp [splitAtBreak, Ne.symm hw, ih hws]

/-- The code's records and the data's cells, as the load of the format lays them out. -/
theorem State.loadWords_first {code : List InstrWord} (h : 0xFEDEFFE7#32 ∉ code) (data : List InstrWord)
    (dec : Nat → InstrWord → Record) (cfg : Config) :
    State.loadWords dec cfg (code ++ 0xFEDEFFE7#32 :: data) =
      State.load cfg (recordsFrom dec cfg.entryPc (code ++ [0xFEDEFFE7#32]))
        (imageFrom (cfg.entryPc + 4 * (code.length + 1)) data) := by
  simp [State.loadWords, splitAtBreak_first h]

@[simp] theorem recordsFrom_length (dec : Nat → InstrWord → Record) (a : Nat) (ws : List InstrWord) :
    (recordsFrom dec a ws).length = ws.length := by
  induction ws generalizing a with
  | nil => rfl
  | cons w ws ih => simp [recordsFrom, ih]

theorem recordsFrom_getElem? (dec : Nat → InstrWord → Record) (a : Nat) (ws : List InstrWord) (k : Nat) :
    (recordsFrom dec a ws)[k]? = ws[k]?.map fun w => (a + 4 * k, dec (a + 4 * k) w) := by
  induction ws generalizing a k with
  | nil => rfl
  | cons w ws ih =>
    cases k with
    | zero => rfl
    | succ k => simp [recordsFrom, ih, show a + 4 + 4 * k = a + 4 * (k + 1) by omega]

theorem lookup_recordsFrom (dec : Nat → InstrWord → Record) (a : Nat) (ws : List InstrWord) (k : Nat) :
    Store.lookup (recordsFrom dec a ws) (a + 4 * k) = ws[k]?.map (dec (a + 4 * k)) := by
  induction ws generalizing a k with
  | nil => rfl
  | cons w ws ih =>
    cases k with
    | zero => simp [recordsFrom, Store.lookup]
    | succ k =>
      have haddr : a + 4 * (k + 1) = a + 4 + 4 * k := by omega
      have hne : ¬ a = a + 4 + 4 * k := by omega
      simp only [recordsFrom, Store.lookup, haddr, if_neg hne, ih, List.getElem?_cons_succ]

/-- The `k`-th data word is the cell at the `k`-th address, sign-extended. -/
theorem entry_imageFrom (a : Nat) (ws : List InstrWord) (k : Nat) :
    Memory.entry (imageFrom a ws) (a + 4 * k : Nat) = ws[k]?.map (BitVec.signExtend 64) := by
  induction ws generalizing a k with
  | nil => rfl
  | cons w ws ih =>
    cases k with
    | zero => simp [imageFrom, Memory.entry]
    | succ k =>
      have haddr : a + 4 * (k + 1) = a + 4 + 4 * k := by omega
      have hne : ¬ (a : Int) = (a + 4 + 4 * k : Nat) := by omega
      simp only [imageFrom, Memory.entry, haddr, if_neg hne, ih, List.getElem?_cons_succ]

/-- Decoded words one after another meet the loader's premises (R39, R222). -/
theorem storeOk_recordsFrom {cfg : Config} {ws : List InstrWord} (haligned : cfg.entryPc % 4 = 0) (hne : ws ≠ [])
    (hbound : cfg.entryPc + 4 * ws.length ≤ 2 ^ 62) : StoreOk cfg (recordsFrom decode cfg.entryPc ws) where
  entryAligned := haligned
  nonEmpty := by rw [recordsFrom_length]; exact List.length_pos_iff.2 hne
  bounded := by simpa using hbound
  contiguous k r hr := by
    rw [recordsFrom_getElem?] at hr
    obtain ⟨w, -, rfl⟩ := Option.map_eq_some_iff.1 hr
    exact ⟨rfl, rfl⟩

end Sys2Proof.Machine
end

section
/-! PROOFS. The rows of the opcode map, read from both sides: the pattern of a row, the row an instruction decodes from, and the
encoding of what a word decodes to (30_encoding.md R51 to R69). -/

namespace Sys2Proof

/-! ### A row's pattern under its mask (R62) -/

/-- Masking away the low bits is shifting them out and back. -/
theorem and_allOnes_shiftLeft {n : Nat} (w : BitVec n) (lo : Nat) :
    w &&& BitVec.allOnes n <<< lo = w >>> lo <<< lo := by
  ext i hi
  by_cases h : i < lo
  · simp [h]
  · simp [h, show lo + (i - lo) = i by omega, BitVec.getLsbD_eq_getElem hi]

theorem toNat_and_allOnes_shiftLeft (w : InstrWord) (lo : Nat) :
    (w &&& BitVec.allOnes 32 <<< lo).toNat = w.toNat / 2 ^ lo * 2 ^ lo := by
  have hle : w.toNat / 2 ^ lo * 2 ^ lo ≤ w.toNat := Nat.div_mul_le_self _ _
  rw [and_allOnes_shiftLeft, BitVec.toNat_shiftLeft, BitVec.toNat_ushiftRight, Nat.shiftLeft_eq,
    Nat.shiftRight_eq_div_pow, Nat.mod_eq_of_lt (hle.trans_lt w.isLt)]

theorem toNat_div_lt (w : InstrWord) {lo : Nat} (hlo : lo ≤ 31) : w.toNat / 2 ^ lo < 2 ^ (31 - lo + 1) := by
  rw [Nat.div_lt_iff_lt_mul (by positivity), ← pow_add, show 31 - lo + 1 + lo = 32 by omega]
  exact w.isLt

theorem opcodeRows_opcode_lt : ∀ r ∈ opcodeRows, r.opcode * 2 ^ r.lo < 2 ^ 32 := by
  decide

/-- A word fits a row exactly when it carries the row's opcode, in its place, under the mask of the opcode's bits. -/
theorem fits_iff_masked {r : OpcodeRow} {mask : InstrWord} {lo m : Nat} (hr : r ∈ opcodeRows) (hrlo : r.lo = lo)
    (hmask : mask = BitVec.allOnes 32 <<< lo) (hm : r.opcode * 2 ^ lo = m) (w : InstrWord) :
    r.fits w = true ↔ w &&& mask = BitVec.ofNat 32 m := by
  subst hmask hrlo hm
  obtain ⟨hhi, hlo⟩ := opcodeRows_hi r hr
  rw [fits_iff, hhi, Nat.mod_eq_of_lt (toNat_div_lt w hlo), ← BitVec.toNat_inj, toNat_and_allOnes_shiftLeft,
    BitVec.toNat_ofNat, Nat.mod_eq_of_lt (opcodeRows_opcode_lt r hr)]
  exact (Nat.mul_left_inj (by positivity)).symm

/-! ### The row an instruction decodes from -/

/-- Whatever the fields, a row builds the same one of the nineteen instructions. -/
theorem opcodeRows_ctorIdx : ∀ r ∈ opcodeRows, ∀ w, (r.build w).ctorIdx = (r.build 0).ctorIdx := by
  simp [opcodeRows, rRows, otherRows, decodeR, decodeI, decodeD, decodeCB, decodeIM, Instr.ctorIdx]

/-- No two rows build the same one of the nineteen instructions. -/
theorem opcodeRows_ctorIdx_nodup : (opcodeRows.map fun r => (r.build 0).ctorIdx).Nodup := by
  decide

/-- A word that decodes to the instruction that a row builds fits that row. -/
theorem fits_of_decodeInstr {r : OpcodeRow} {w : InstrWord} {i : Instr} (hr : r ∈ opcodeRows)
    (hi : decodeInstr w = some i) (hidx : i.ctorIdx = (r.build 0).ctorIdx) : r.fits w = true := by
  obtain ⟨q, hq, hf, rfl⟩ := row_of_decodeInstr hi
  rw [opcodeRows_ctorIdx q hq] at hidx
  rwa [← List.inj_on_of_nodup_map opcodeRows_ctorIdx_nodup hq hr hidx]

/-! ### Selection by mask and match, format by format (R63 to R69)

`m` is the match value, the row's opcode in its place. -/

theorem exists_decodeR_iff {op : Nat → Nat → Nat → Int → Instr} {m : Nat}
    (hr : ⟨31, 21, m / 2 ^ 21, decodeR op⟩ ∈ opcodeRows) (hm : m / 2 ^ 21 * 2 ^ 21 = m)
    (hop : ∀ rd rn rm shamt, (op rd rn rm shamt).ctorIdx = (decodeR op 0).ctorIdx) (w : InstrWord) :
    (∃ rd rn rm shamt, decodeInstr w = some (op rd rn rm shamt)) ↔
      w &&& 0xFFE00000#32 = BitVec.ofNat 32 m :=
  Iff.trans ⟨fun ⟨_, _, _, _, h⟩ => fits_of_decodeInstr hr h (hop ..), fun hf => ⟨_, _, _, _, decodeInstr_of_fits hr hf⟩⟩
    (fits_iff_masked (lo := 21) hr rfl (by decide) hm w)

theorem exists_decodeI_iff {op : Nat → Nat → Int → Instr} {m : Nat}
    (hr : ⟨31, 22, m / 2 ^ 22, decodeI op⟩ ∈ opcodeRows) (hm : m / 2 ^ 22 * 2 ^ 22 = m)
    (hop : ∀ rd rn imm, (op rd rn imm).ctorIdx = (decodeI op 0).ctorIdx) (w : InstrWord) :
    (∃ rd rn imm, decodeInstr w = some (op rd rn imm)) ↔ w &&& 0xFFC00000#32 = BitVec.ofNat 32 m :=
  Iff.trans ⟨fun ⟨_, _, _, h⟩ => fits_of_decodeInstr hr h (hop ..), fun hf => ⟨_, _, _, decodeInstr_of_fits hr hf⟩⟩
    (fits_iff_masked (lo := 22) hr rfl (by decide) hm w)

theorem exists_decodeD_iff {op : Nat → Nat → Int → Instr} {m : Nat}
    (hr : ⟨31, 21, m / 2 ^ 21, decodeD op⟩ ∈ opcodeRows) (hm : m / 2 ^ 21 * 2 ^ 21 = m)
    (hop : ∀ rt rn offset, (op rt rn offset).ctorIdx = (decodeD op 0).ctorIdx) (w : InstrWord) :
    (∃ rt rn offset, decodeInstr w = some (op rt rn offset)) ↔ w &&& 0xFFE00000#32 = BitVec.ofNat 32 m :=
  Iff.trans ⟨fun ⟨_, _, _, h⟩ => fits_of_decodeInstr hr h (hop ..), fun hf => ⟨_, _, _, decodeInstr_of_fits hr hf⟩⟩
    (fits_iff_masked (lo := 21) hr rfl (by decide) hm w)

theorem exists_decodeCB_iff {op : Nat → Int → Instr} {m : Nat}
    (hr : ⟨31, 24, m / 2 ^ 24, decodeCB op⟩ ∈ opcodeRows) (hm : m / 2 ^ 24 * 2 ^ 24 = m)
    (hop : ∀ rt offset, (op rt offset).ctorIdx = (decodeCB op 0).ctorIdx) (w : InstrWord) :
    (∃ rt offset, decodeInstr w = some (op rt offset)) ↔ w &&& 0xFF000000#32 = BitVec.ofNat 32 m :=
  Iff.trans ⟨fun ⟨_, _, h⟩ => fits_of_decodeInstr hr h (hop ..), fun hf => ⟨_, _, decodeInstr_of_fits hr hf⟩⟩
    (fits_iff_masked (lo := 24) hr rfl (by decide) hm w)

theorem exists_decodeIM_iff {op : Nat → Nat → Nat → Instr} {m : Nat}
    (hr : ⟨31, 23, m / 2 ^ 23, decodeIM op⟩ ∈ opcodeRows) (hm : m / 2 ^ 23 * 2 ^ 23 = m)
    (hop : ∀ rd imm16 shift, (op rd imm16 shift).ctorIdx = (decodeIM op 0).ctorIdx) (w : InstrWord) :
    (∃ rd imm16 shift, decodeInstr w = some (op rd imm16 shift)) ↔
      w &&& 0xFF800000#32 = BitVec.ofNat 32 m :=
  Iff.trans ⟨fun ⟨_, _, _, h⟩ => fits_of_decodeInstr hr h (hop ..), fun hf => ⟨_, _, _, decodeInstr_of_fits hr hf⟩⟩
    (fits_iff_masked (lo := 23) hr rfl (by decide) hm w)

theorem exists_decodeB_iff (w : InstrWord) :
    (∃ offset, decodeInstr w = some (.b offset)) ↔ w &&& 0xFC000000#32 = 0x14000000#32 :=
  have hr : ⟨31, 26, 5, fun w => .b (sfield w 25 0)⟩ ∈ opcodeRows := by simp [opcodeRows, otherRows]
  Iff.trans ⟨fun ⟨_, h⟩ => fits_of_decodeInstr hr h rfl, fun hf => ⟨_, decodeInstr_of_fits hr hf⟩⟩
    (fits_iff_masked (lo := 26) hr rfl (by decide) (by decide) w)

/-- NOP and BREAK are matched on all 32 bits (R69). -/
theorem decodeInstr_eq_iff {i : Instr} {m : Nat} (hr : ⟨31, 0, m, fun _ => i⟩ ∈ opcodeRows) (w : InstrWord) :
    decodeInstr w = some i ↔ w = BitVec.ofNat 32 m := by
  have hmasked := fits_iff_masked (lo := 0) (mask := BitVec.allOnes 32) hr rfl (by decide) (Nat.mul_one m) w
  rw [BitVec.and_allOnes] at hmasked
  exact Iff.trans ⟨fun h => fits_of_decodeInstr hr h rfl, decodeInstr_of_fits hr⟩ hmasked

/-! ### The fields of a word are in their domains (R51 to R58) -/

theorem ufield_lt (w : InstrWord) (hi lo : Nat) : ufield w hi lo < 2 ^ (hi - lo + 1) := BitVec.isLt _

theorem sfield_bounds (w : InstrWord) (hi lo : Nat) :
    -2 ^ (hi - lo) ≤ sfield w hi lo ∧ sfield w hi lo < 2 ^ (hi - lo) :=
  ⟨BitVec.le_toInt _, BitVec.toInt_lt⟩

theorem rOperandsOk_fields (w : InstrWord) :
    rOperandsOk (ufield w 4 0) (ufield w 9 5) (ufield w 20 16) (ufield w 15 10) = true := by
  have hrd := ufield_lt w 4 0
  have hrn := ufield_lt w 9 5
  have hrm := ufield_lt w 20 16
  have hshamt := ufield_lt w 15 10
  rw [rOperandsOk_iff]
  omega

theorem iOperandsOk_fields (w : InstrWord) :
    iOperandsOk (ufield w 4 0) (ufield w 9 5) (sfield w 21 10) = true := by
  have hrd := ufield_lt w 4 0
  have hrn := ufield_lt w 9 5
  have himm := sfield_bounds w 21 10
  rw [iOperandsOk_iff]
  omega

theorem dOperandsOk_fields (w : InstrWord) :
    dOperandsOk (ufield w 4 0) (ufield w 9 5) (sfield w 20 12) = true := by
  have hrt := ufield_lt w 4 0
  have hrn := ufield_lt w 9 5
  have hoffset := sfield_bounds w 20 12
  rw [dOperandsOk_iff]
  omega

theorem cbOperandsOk_fields (w : InstrWord) : cbOperandsOk (ufield w 4 0) (sfield w 23 5) = true := by
  have hrt := ufield_lt w 4 0
  have hoffset := sfield_bounds w 23 5
  rw [cbOperandsOk_iff]
  omega

theorem imOperandsOk_fields (w : InstrWord) :
    imOperandsOk (ufield w 4 0) (ufield w 20 5) (ufield w 22 21) = true := by
  have hrd := ufield_lt w 4 0
  have himm16 := ufield_lt w 20 5
  have hshift := ufield_lt w 22 21
  rw [imOperandsOk_iff]
  omega

theorem boffOk_field (w : InstrWord) : signedOk 26 (sfield w 25 0) = true := by
  have hoffset := sfield_bounds w 25 0
  rw [boffOk_iff]
  omega

/-! ### A word is its opcode and its fields put together again (R63 to R69) -/

theorem encodeR_fields {w : InstrWord} {k : Nat} (hk : ufield w 31 21 = k) :
    encodeR (k * 2097152) (ufield w 4 0) (ufield w 9 5) (ufield w 20 16) (ufield w 15 10) = w := by
  subst hk
  apply BitVec.eq_of_toNat_eq
  simp only [encodeR, ufield_eq, BitVec.toNat_ofNat, Int.toNat_natCast]
  omega

theorem encodeI_fields {w : InstrWord} {k : Nat} (hk : ufield w 31 22 = k) :
    encodeI (k * 4194304) (ufield w 4 0) (ufield w 9 5) (sfield w 21 10) = w := by
  subst hk
  apply BitVec.eq_of_toNat_eq
  simp only [encodeI, sfield_eq, ufield_eq, BitVec.toNat_ofNat]
  split <;> omega

/-- Bits 11 and 10 of a word cleared, as arithmetic. -/
theorem toNat_and_ignoredBits (w : InstrWord) :
    (w &&& 0xFFFFF3FF#32).toNat = w.toNat / 4096 * 4096 + w.toNat % 1024 := by
  have hsplit : w &&& 0xFFFFF3FF#32 = w &&& BitVec.allOnes 32 <<< 12 ||| w &&& 0x3FF#32 := by
    rw [← BitVec.and_or_distrib_left]; rfl
  have hlow : w.toNat &&& 1023 = w.toNat % 1024 := Nat.and_two_pow_sub_one_eq_mod w.toNat 10
  have hor := Nat.shiftLeft_add_eq_or_of_lt (show w.toNat % 1024 < 2 ^ 12 by omega) (w.toNat / 4096)
  rw [hsplit, BitVec.toNat_or, toNat_and_allOnes_shiftLeft, BitVec.toNat_and]
  simpa [hlow, Nat.shiftLeft_eq] using hor.symm

/-- A D-format word comes back without its ignored bits 11 and 10 (R65). -/
theorem encodeD_fields {w : InstrWord} {k : Nat} (hk : ufield w 31 21 = k) :
    encodeD (k * 2097152) (ufield w 4 0) (ufield w 9 5) (sfield w 20 12) = w &&& 0xFFFFF3FF#32 := by
  subst hk
  apply BitVec.eq_of_toNat_eq
  rw [toNat_and_ignoredBits]
  simp only [encodeD, sfield_eq, ufield_eq, BitVec.toNat_ofNat]
  split <;> omega

theorem encodeCB_fields {w : InstrWord} {k : Nat} (hk : ufield w 31 24 = k) :
    encodeCB (k * 16777216) (ufield w 4 0) (sfield w 23 5) = w := by
  subst hk
  apply BitVec.eq_of_toNat_eq
  simp only [encodeCB, sfield_eq, ufield_eq, BitVec.toNat_ofNat]
  split <;> omega

theorem encodeIM_fields {w : InstrWord} {k : Nat} (hk : ufield w 31 23 = k) :
    encodeIM (k * 8388608) (ufield w 4 0) (ufield w 20 5) (ufield w 22 21) = w := by
  subst hk
  apply BitVec.eq_of_toNat_eq
  simp only [encodeIM, ufield_eq, BitVec.toNat_ofNat]
  omega

theorem encodeB_field {w : InstrWord} (hk : ufield w 31 26 = 5) : encode (.b (sfield w 25 0)) = w := by
  rw [ufield_eq] at hk
  apply BitVec.eq_of_toNat_eq
  simp only [encode, sfield_eq, ufield_eq, BitVec.toNat_ofNat]
  split <;> omega

theorem eq_ofNat_of_ufield {w : InstrWord} {k : Nat} (hk : ufield w 31 0 = k) : w = BitVec.ofNat 32 k := by
  subst hk
  apply BitVec.eq_of_toNat_eq
  simp only [ufield_eq, BitVec.toNat_ofNat]
  omega

/-! ### The encoding of what a word decodes to -/

/-- What is asked of a row: whatever fits it builds a well-formed instruction, whose encoding is the word again, or for the D
format the word without its ignored bits (R65). -/
def OpcodeRow.Reencodes (r : OpcodeRow) : Prop := ∀ w, r.fits w = true → (r.build w).WellFormed ∧
  ((r.build w).format ≠ .d → encode (r.build w) = w) ∧
  ((r.build w).format = .d → encode (r.build w) = w &&& 0xFFFFF3FF#32)

theorem OpcodeRow.Reencodes.of_ne_d {r : OpcodeRow} (hd : ∀ w, (r.build w).format ≠ .d)
    (h : ∀ w, ufield w r.hi r.lo = r.opcode → (r.build w).WellFormed ∧ encode (r.build w) = w) : r.Reencodes := by
  intro w hf
  obtain ⟨hw, he⟩ := h w (beq_iff_eq.1 hf)
  exact ⟨hw, fun _ => he, fun hfmt => absurd hfmt (hd w)⟩

theorem OpcodeRow.Reencodes.of_d {r : OpcodeRow} (hd : ∀ w, (r.build w).format = .d)
    (h : ∀ w, ufield w r.hi r.lo = r.opcode →
      (r.build w).WellFormed ∧ encode (r.build w) = w &&& 0xFFFFF3FF#32) : r.Reencodes := by
  intro w hf
  obtain ⟨hw, he⟩ := h w (beq_iff_eq.1 hf)
  exact ⟨hw, fun hfmt => absurd (hd w) hfmt, fun _ => he⟩

theorem rRows_reencode : ∀ r ∈ rRows, r.Reencodes := by
  simp only [rRows, List.forall_mem_cons]
  refine ⟨?and, ?add, ?orr, ?eor, ?sub, ?asr, ?lsr, ?lsl, nofun⟩
  all_goals exact .of_ne_d (fun _ => nofun) fun w hk => ⟨rOperandsOk_fields w, encodeR_fields hk⟩

theorem otherRows_reencode : ∀ r ∈ otherRows, r.Reencodes := by
  simp only [otherRows, List.forall_mem_cons]
  refine ⟨?addi, ?subi, ?ldur, ?stur, ?b, ?cbz, ?cbnz, ?movz, ?movk, ?nop, ?brk, nofun⟩
  case addi | subi => exact .of_ne_d (fun _ => nofun) fun w hk => ⟨iOperandsOk_fields w, encodeI_fields hk⟩
  case ldur | stur => exact .of_d (fun _ => rfl) fun w hk => ⟨dOperandsOk_fields w, encodeD_fields hk⟩
  case b => exact .of_ne_d (fun _ => nofun) fun w hk => ⟨boffOk_field w, encodeB_field hk⟩
  case cbz | cbnz => exact .of_ne_d (fun _ => nofun) fun w hk => ⟨cbOperandsOk_fields w, encodeCB_fields hk⟩
  case movz | movk => exact .of_ne_d (fun _ => nofun) fun w hk => ⟨imOperandsOk_fields w, encodeIM_fields hk⟩
  case nop | brk => exact .of_ne_d (fun _ => nofun) fun w hk => ⟨rfl, (eq_ofNat_of_ufield hk).symm⟩

/-- What a word decodes to is well-formed and encodes to the word again, but for the ignored bits (R62, R65). -/
theorem opcodeRows_reencode : ∀ r ∈ opcodeRows, r.Reencodes :=
  fun r hr => (List.mem_append.1 hr).elim (rRows_reencode r) (otherRows_reencode r)

/-! ### The decoding of a well-formed instruction's word -/

/-- Every instruction has its own row (R63 to R69). -/
theorem row_of_wellFormed {i : Instr} (h : i.WellFormed) :
    ∃ r ∈ opcodeRows, r.fits (encode i) = true ∧ r.build (encode i) = i := by
  cases i with
  | and => exact Laws.OwnRow.and _ _ _ _ h
  | add => exact Laws.OwnRow.add _ _ _ _ h
  | orr => exact Laws.OwnRow.orr _ _ _ _ h
  | eor => exact Laws.OwnRow.eor _ _ _ _ h
  | sub => exact Laws.OwnRow.sub _ _ _ _ h
  | asr => exact Laws.OwnRow.asr _ _ _ _ h
  | lsr => exact Laws.OwnRow.lsr _ _ _ _ h
  | lsl => exact Laws.OwnRow.lsl _ _ _ _ h
  | addi => exact Laws.OwnRow.addi _ _ _ h
  | subi => exact Laws.OwnRow.subi _ _ _ h
  | ldur => exact Laws.OwnRow.ldur _ _ _ h
  | stur => exact Laws.OwnRow.stur _ _ _ h
  | b => exact Laws.OwnRow.b _ h
  | cbz => exact Laws.OwnRow.cbz _ _ h
  | cbnz => exact Laws.OwnRow.cbnz _ _ h
  | movz => exact Laws.OwnRow.movz _ _ _ h
  | movk => exact Laws.OwnRow.movk _ _ _ h
  | nop => exact Laws.OwnRow.nop h
  | brk => exact Laws.OwnRow.brk h

theorem decodeShape_unsupported_iff (w : InstrWord) : decodeShape w = .unsupported w ↔ decodeInstr w = none := by
  cases h : decodeInstr w <;> simp [decodeShape, h]

end Sys2Proof
end

section
/-! PROOFS. The obligations on the encoding (30_encoding.md), settled. -/

namespace Sys2Proof.Proofs

open Sys2Proof.Machine Sys2Proof.Claims

/-- Settles O8: the instruction's own row fits its word, and no other row does. -/
theorem decodeInvertsEncode : Obligations.DecodeInvertsEncode := by
  intro i hw
  obtain ⟨r, hr, hf, hbuild⟩ := row_of_wellFormed hw
  rw [decodeInstr_of_fits hr hf, hbuild]

/-- Settles O46, by induction over the steps: each step of the one machine is matched by the other. -/
theorem textNeverInfluencesExecution : Obligations.TextNeverInfluencesExecution := by
  intro n
  induction n with
  | zero =>
    rintro s _ s' h rfl
    exact ⟨s', rfl, h⟩
  | succ n ih =>
    rintro s t s' h ⟨u, hsu, hut⟩
    obtain ⟨u', hsu', hu⟩ := h.step hsu
    obtain ⟨t', hut', ht⟩ := ih u t u' hu hut
    exact ⟨t', ⟨u', hsu', hut'⟩, ht⟩

/-- Settles O7: the format's split at the first BREAK, then what lies at each address of the two parts. -/
theorem historicalFormatLoads : Obligations.HistoricalFormatLoads := by
  intro cfg code data haligned hbound hcode
  rw [State.loadWords_first hcode]
  refine ⟨?premises, ?ninstr, fun k w hw => ?fetched, fun k w hw => ?cell⟩
  case premises => exact storeOk_recordsFrom haligned (by simp) (by simpa using hbound)
  case ninstr => simp [State.ninstr]
  case fetched => rw [State.ifetch, State.load_istore, lookup_recordsFrom, hw, Option.map_some]
  case cell =>
    rw [State.load_mem, entry_imageFrom, hw, Option.map_some]
    rfl

/-- Settles O9, by the row the word decodes by. -/
theorem encodeInvertsDecode : Obligations.EncodeInvertsDecode := by
  intro w i hi
  obtain ⟨r, hr, hf, rfl⟩ := row_of_decodeInstr hi
  exact opcodeRows_reencode r hr w hf

/-- Settles O10: each instruction comes from one row, and a row's opcode is its match under its mask. -/
theorem patternsSelectInstructions : Obligations.PatternsSelectInstructions := by
  intro w
  refine ⟨?and, ?add, ?orr, ?eor, ?sub, ?asr, ?lsr, ?lsl, ?addi, ?subi, ?ldur, ?stur, ?b, ?cbz, ?cbnz, ?movz, ?movk,
    ?nop, ?brk, decodeShape_unsupported_iff w⟩
  case and | add | orr | eor | sub | asr | lsr | lsl =>
    exact exists_decodeR_iff (by simp [opcodeRows, rRows]) (by decide) (fun _ _ _ _ => rfl) w
  case addi | subi =>
    exact exists_decodeI_iff (by simp [opcodeRows, otherRows]) (by decide) (fun _ _ _ => rfl) w
  case ldur | stur =>
    exact exists_decodeD_iff (by simp [opcodeRows, otherRows]) (by decide) (fun _ _ _ => rfl) w
  case b => exact exists_decodeB_iff w
  case cbz | cbnz =>
    exact exists_decodeCB_iff (by simp [opcodeRows, otherRows]) (by decide) (fun _ _ => rfl) w
  case movz | movk =>
    exact exists_decodeIM_iff (by simp [opcodeRows, otherRows]) (by decide) (fun _ _ _ => rfl) w
  case nop | brk => exact decodeInstr_eq_iff (by simp [opcodeRows, otherRows]) w

/-- Settles O11, by running the decoder on each word. -/
theorem specWordsDecode : Obligations.SpecWordsDecode := by
  unfold Obligations.SpecWordsDecode
  decide

/-- Settles O12, format by format. -/
theorem wellFormedMeansInDomain : Obligations.WellFormedMeansInDomain := by
  intro i
  cases i with
  | and | add | orr | eor | sub | asr | lsr | lsl => exact rOperandsOk_iff ..
  | addi | subi => exact iOperandsOk_iff ..
  | ldur | stur => exact dOperandsOk_iff ..
  | b => exact boffOk_iff _
  | cbz | cbnz => exact cbOperandsOk_iff ..
  | movz | movk =>
    rw [Instr.WellFormed, Instr.wellFormed, imOperandsOk_iff, FieldsInDomain]
    omega
  | nop | brk => exact iff_of_true rfl trivial

end Sys2Proof.Proofs
end

section
/-! PROOFS. What a step and a run add to the cycle counter and the trace (40_engine_step.md R85, R86, R91; 47_trace_recorder.md
R171, R172). -/

namespace Sys2Proof.Machine

open Sys2Proof.Claims

variable {s t : State}

/-! ### One step -/

/-- No step leaves a halted machine (R18, R81). -/
theorem step_halted (h : s.run = .halted) : step s = .fault .halted := by simp [step, engineStep, h]

/-- No step leaves a faulted machine (R18, R81). -/
theorem step_faulted (h : s.run = .faulted) : step s = .fault .faulted := by simp [step, engineStep, h]

theorem not_faulted_of_step (h : step s = .next t) : s.run ≠ .faulted := by
  rw [(step_cases h).1]; decide

/-- The inversion lemma of a step that raises nothing: it executed the record it fetched and committed it (R81). -/
theorem step_completed (h : step s = .next t) (ht : t.run ≠ .faulted) :
    ∃ r i u, s.ifetch s.pc.toNat = some r ∧ r.shape = .instr i ∧ r.addr = s.pc.toNat ∧
      exec i s = .next u ∧ u.run ≠ .faulted ∧ t = u.commit r := by
  cases (step_cases h).2 with
  | fetchFailed | unsupported | wrongAddr => exact absurd rfl ht
  | raised _ _ _ _ hfault => exact absurd hfault ht
  | executed hf hs ha he hok => exact ⟨_, _, _, hf, hs, ha, he, hok, rfl⟩

/-- The block of a commit shows the committed state. -/
theorem State.blockShows_commit (s : State) (r : Record) : BlockShows (s.tick.snapshot r) (s.commit r) r :=
  ⟨rfl, rfl, rfl, fun _ hi => s.tick.regs_getElem? hi, rfl⟩

/-- A step that raises nothing counts one cycle and appends the block of the record it fetched (R85, R86, R171). -/
theorem step_emits_block (h : step s = .next t) (ht : t.run ≠ .faulted) :
    t.cycle = s.cycle + 1 ∧ ∃ r b, s.ifetch s.pc.toNat = some r ∧ r.addr = s.pc.toNat ∧
      t.trace = s.trace ++ [b] ∧ BlockShows b t r := by
  obtain ⟨r, i, u, hf, -, ha, he, -, rfl⟩ := step_completed h ht
  obtain ⟨hcycle, htrace, -⟩ := (exec_effect he).engine_fields
  exact ⟨by rw [State.commit_cycle, hcycle], r, u.tick.snapshot r, hf, ha, by rw [State.commit_trace, htrace],
    u.blockShows_commit r⟩

/-- A step that raises a condition neither counts nor emits (R195). -/
theorem step_raised_emits_nothing (h : step s = .next t) (ht : t.run = .faulted) :
    t.cycle = s.cycle ∧ t.trace = s.trace := by
  cases (step_cases h).2 with
  | fetchFailed | unsupported | wrongAddr => exact ⟨rfl, rfl⟩
  | raised _ _ _ he =>
    obtain ⟨hcycle, htrace, -⟩ := (exec_effect he).engine_fields
    exact ⟨hcycle, htrace⟩
  | executed _ _ _ _ hok => exact absurd ht hok

/-- A step that raises nothing leaves the fault record (R19). -/
theorem step_keeps_fault (h : step s = .next t) (ht : t.run ≠ .faulted) : t.fault = s.fault := by
  obtain ⟨r, i, u, -, -, -, he, hok, rfl⟩ := step_completed h ht
  rcases (exec_effect he).run_cases with ⟨-, hf⟩ | ⟨-, -, hf⟩ | ⟨hfault, -⟩
  · exact hf
  · exact hf
  · exact absurd hfault hok

/-- A step that halts is the step of a BREAK (R87, R162). -/
theorem step_halts (h : step s = .next t) (ht : t.run = .halted) :
    ∃ r, s.ifetch s.pc.toNat = some r ∧ r.shape = .instr .brk ∧ r.addr = s.pc.toNat ∧ t = s.advance.halt.commit r := by
  obtain ⟨r, i, u, hf, hs, ha, he, -, rfl⟩ := step_completed h (by simp [ht])
  obtain rfl := (exec_halted_iff (step_cases h).1 he).1 ht
  obtain rfl := exec_brk he
  exact ⟨r, hf, hs, ha, rfl⟩

/-! ### The labels of the blocks -/

/-- The blocks emitted so far are labelled 1 .. `cycle` in that order (R91): that clause of `State.Inv` on its own, which a
loaded machine has whatever was loaded. -/
def State.Labelled (s : State) : Prop := s.trace.map Snapshot.cycle = (List.range s.cycle).map (· + 1)

theorem State.Labelled.trace_length (h : s.Labelled) : s.trace.length = s.cycle := by
  simpa using congrArg List.length h

theorem State.Labelled.step (hs : s.Labelled) (h : step s = .next t) : t.Labelled := by
  unfold State.Labelled at hs ⊢
  by_cases ht : t.run = .faulted
  · obtain ⟨hcycle, htrace⟩ := step_raised_emits_nothing h ht
    rw [hcycle, htrace, hs]
  · obtain ⟨hcycle, r, b, -, -, htrace, hlabel, -⟩ := step_emits_block h ht
    simp [htrace, hs, hlabel, hcycle, List.range_succ]

/-! ### Any number of steps -/

/-- The last of `n + 1` steps, split off from the `n` before it. -/
theorem Steps.exists_last {n : Nat} (h : Steps (n + 1) s t) : ∃ u, Steps n s u ∧ step u = .next t := by
  induction n generalizing s with
  | zero =>
    obtain ⟨_, hst, rfl⟩ := h
    exact ⟨s, rfl, hst⟩
  | succ n ih =>
    obtain ⟨v, hsv, hvt⟩ := h
    obtain ⟨u, hvu, hut⟩ := ih hvt
    exact ⟨u, ⟨v, hsv, hvu⟩, hut⟩

/-- What holds at the start of a run and is kept by every step holds at its end. -/
theorem Steps.invariant {P : State → Prop} (hstep : ∀ u v, P u → step u = .next v → P v) {n : Nat} (h : Steps n s t)
    (hs : P s) : P t := by
  induction n generalizing s with
  | zero =>
    obtain rfl : t = s := h
    exact hs
  | succ n ih =>
    obtain ⟨u, hsu, hut⟩ := h
    exact ih hut (hstep s u hs hsu)

/-- A run that raised nothing counted each of its steps (R91). -/
theorem Steps.cycle_eq {n : Nat} (h : Steps n s t) (ht : t.run ≠ .faulted) : t.cycle = s.cycle + n := by
  induction n generalizing t with
  | zero => exact congrArg State.cycle h
  | succ n ih =>
    obtain ⟨u, hsu, hut⟩ := h.exists_last
    rw [(step_emits_block hut ht).1, ih hsu (not_faulted_of_step hut), Nat.add_assoc]

/-- A run whose last step raised a condition counted every step but that one (R91). -/
theorem Steps.cycle_succ_eq {n : Nat} (h : Steps n s t) (hs : s.run ≠ .faulted) (ht : t.run = .faulted) :
    t.cycle + 1 = s.cycle + n := by
  cases n with
  | zero =>
    obtain rfl : t = s := h
    exact absurd ht hs
  | succ n =>
    obtain ⟨u, hsu, hut⟩ := h.exists_last
    rw [(step_raised_emits_nothing hut ht).1, hsu.cycle_eq (not_faulted_of_step hut), Nat.add_assoc]

/-- A run that raised nothing left the fault record (R19). -/
theorem Steps.fault_eq {n : Nat} (h : Steps n s t) : t.run ≠ .faulted → t.fault = s.fault := by
  refine h.invariant (P := fun u => u.run ≠ .faulted → u.fault = s.fault) (fun u v hu huv hv => ?_) fun _ => rfl
  rw [step_keeps_fault huv hv, hu (not_faulted_of_step huv)]

theorem Steps.labelled_of_load {cfg : Config} {prog : Store} {image : Memory} {n : Nat}
    (h : Steps n (State.load cfg prog image) t) : t.Labelled :=
  h.invariant (fun _ _ hu huv => hu.step huv) rfl

/-! ### A branch to itself (44_b_cb_format.md R141) -/

theorem exec_b_zero (s : State) : exec (.b 0) s = .next s := by
  have hw : Instr.WellFormed (.b 0) := rfl
  have hself : s.branch 0 = s := by simp [State.branch]
  calc exec (.b 0) s = s.checked (.b 0) (.next (s.branch 0)) := rfl
    _ = .next s := by rw [State.checked_ok hw, hself]

/-- The step of `B #0` counts and emits, and leaves the machine where it was. -/
theorem step_b_zero (hrun : s.run = .running) (hf : s.Fetches (.b 0)) : ∃ r, step s = .next (s.commit r) := by
  obtain ⟨r, hr, ha, hs⟩ := hf
  exact ⟨r, step_executes hrun hr ha hs (exec_b_zero s) (by simp [hrun])⟩

end Sys2Proof.Machine
end

section
/-! PROOFS. The obligations on the engine's step (40_engine_step.md), settled. -/

namespace Sys2Proof.Proofs

open Sys2Proof.Machine Sys2Proof.Claims

/-- Settles O40: a running machine always has a step, and no other machine has one. -/
theorem stepExistsIffRunning : Obligations.StepExistsIffRunning :=
  fun _ => ⟨⟨fun ⟨_, h⟩ => (step_cases h).1, step_total⟩, step_halted, step_faulted⟩

/-- Settles O42, by the cases of a step: only the executed one counts and emits. -/
theorem executedStepEmitsOneBlock : Obligations.ExecutedStepEmitsOneBlock :=
  fun _ _ h => ⟨step_emits_block h, step_raised_emits_nothing h⟩

/-- Settles O43, by induction over the steps: each that raises nothing counts one cycle, and the labels follow the counter. -/
theorem cycleCountsStepsOfRun : Obligations.CycleCountsStepsOfRun := by
  intro cfg prog image n t h
  have hlabels : t.Labelled := h.labelled_of_load
  constructor
  · intro ht
    have hcycle : t.cycle = n := by simpa using h.cycle_eq ht
    exact ⟨hcycle, hcycle ▸ hlabels⟩
  · intro ht
    have hcycle : t.cycle + 1 = n := by simpa using h.cycle_succ_eq (by simp) ht
    exact ⟨hcycle, by rw [hlabels.trace_length, hcycle]⟩

/-- Settles O44: the run's last step halted, so it was a BREAK's, and the block it emitted is the last. -/
theorem haltedRunEndsWithBreakBlock : Obligations.HaltedRunEndsWithBreakBlock := by
  intro cfg prog image n t h ht
  have hok : t.run ≠ .faulted := by simp [ht]
  have hcycle : t.cycle = n := by simpa using h.cycle_eq hok
  have hlength : t.trace.length = n := by rw [h.labelled_of_load.trace_length, hcycle]
  refine ⟨h.fault_eq hok, hcycle, hlength, step_halted ht, ?_⟩
  cases n with
  | zero =>
    obtain rfl : t = State.load cfg prog image := h
    cases ht
  | succ n =>
    obtain ⟨u, hu, hlast⟩ := h.exists_last
    obtain ⟨r, hr, hs, ha, rfl⟩ := step_halts hlast ht
    obtain ⟨hfetch, -⟩ := noStepChangesInstructions n _ u hu
    rw [hfetch] at hr
    refine ⟨r, u.advance.halt.tick.snapshot r, u.pc.toNat, hr, hs, ha, ?last, State.blockShows_commit _ r, ?pc⟩
    case last => rw [State.commit_trace, List.getLast?_concat]
    case pc => simp

/-- Settles O45, by induction over the steps: each leaves the machine where it was. -/
theorem branchToSelfRunsForever : Obligations.BranchToSelfRunsForever := by
  intro s hrun hf n
  induction n generalizing s with
  | zero => exact ⟨s, rfl, hrun, rfl, rfl, rfl, rfl, rfl⟩
  | succ n ih =>
    obtain ⟨r, hstep⟩ := step_b_zero hrun hf
    obtain ⟨t, hsteps, ht, hpc, hx, hmem, hcycle, htrace⟩ := ih (s.commit r) hrun hf
    refine ⟨t, ⟨_, hstep, hsteps⟩, ht, hpc, hx, hmem, ?_, ?_⟩
    · rw [hcycle, State.commit_cycle]; omega
    · rw [htrace, State.commit_trace, List.length_append, List.length_singleton]; omega

/-- Settles O39: the record holds the decoded instruction, whose `exec` answers a next state that the step takes. -/
theorem stepRunsDecodedInstruction : Obligations.StepRunsDecodedInstruction := by
  refine ⟨fun s w i hrun hf hi => ?_, State.ifetch_withFetchWord⟩
  have hs : decodeShape w = .instr i := by rw [decodeShape, hi]
  obtain ⟨t, he⟩ := exec_total i s
  refine ⟨t, he, fun hfault => (StepCase.raised hf hs rfl he hfault).step hrun, fun hok => ?_⟩
  refine ⟨t.tick.snapshot (decode s.pc.toNat w), step_executes hrun hf rfl hs he hok, rfl, rfl, ?_⟩
  exact congrArg Shape.text hs

end Sys2Proof.Proofs
end

section
/-! PROOFS. What an instruction with a computed result does, and the word of an R-format instruction (41_r_format.md R100, R109). -/

namespace Sys2Proof.Machine

open Sys2Proof.Claims

/-! ### The check of the operand fields and the one register written (R12, R13, R100, R193) -/

theorem raisesOutOfDomain (i : Instr) : RaisesOutOfDomain i := fun h _ =>
  exec_malformed (mt (Proofs.wellFormedMeansInDomain i).1 h)

theorem writesOnly_writeReg (s : State) {rd : Nat} (hrd : rd < 32) (v : Word) :
    WritesOnly s (s.writeReg rd v).advance rd v := by
  refine ⟨?_, fun i _ => ?_, fun i hi => ?_, fun hz => ?_⟩
  · unfold State.writeReg
    split <;> rfl
  · rw [State.readReg_congr (State.advance_x _) (State.advance_cfg _), State.readReg_writeReg hrd]
    simp only [State.isZeroReg_iff, eq_comm (a := rd)]
  · exact State.writeReg_x_other hi.symm
  · rw [State.advance_x, State.writeReg_zeroReg ((s.isZeroReg_iff rd).2 hz)]

theorem readReg_of_writesOnly {s t : State} {rd : Nat} {v : Word} (h : WritesOnly s t rd v) (hrd : rd < 32)
    (hz : ¬ (s.cfg.r31IsZero = true ∧ rd = 31)) : t.readReg rd = v := by
  obtain ⟨-, hread, -, -⟩ := h
  rw [hread rd hrd, if_neg hz, if_pos rfl]

/-- A well-formed instruction whose meaning is `writeResult` completes with its result and changes nothing else. -/
theorem exec_writesOnly {i : Instr} {s : State} {rd : Nat} {v : Word} (hexec : exec i s = s.writeResult i rd v)
    (hw : i.WellFormed) (hrd : rd < 32) : ∃ t, exec i s = .next t ∧ WritesOnly s t rd v :=
  ⟨_, hexec.trans (State.writeResult_ok hw), writesOnly_writeReg s hrd v⟩

/-! ### The word of an R-format instruction (R63) -/

/-- A field below the lowest bit set is added and ored alike. -/
theorem or_eq_add_of_dvd {a b : Nat} (i : Nat) (ha : 2 ^ i ∣ a) (hb : b < 2 ^ i) : a ||| b = a + b := by
  obtain ⟨c, rfl⟩ := ha
  exact (Nat.two_pow_add_eq_or_of_lt hb c).symm

/-- The word as the rules write it is the encoder's: the fields do not overlap. -/
theorem encodeR_eq_or {base rd rn rm shamt : Nat} (hbase : 2 ^ 21 ∣ base) (hrd : rd < 32) (hrn : rn < 32) (hrm : rm < 32)
    (hshamt : shamt < 64) :
    BitVec.ofNat 32 (base ||| rm <<< 16 ||| shamt <<< 10 ||| rn <<< 5 ||| rd) = encodeR base rd rn rm shamt := by
  simp only [Nat.shiftLeft_eq]
  rw [or_eq_add_of_dvd (a := base) 21 hbase (by omega),
    or_eq_add_of_dvd (a := base + rm * 2 ^ 16) 16 (by omega) (by omega),
    or_eq_add_of_dvd (a := base + rm * 2 ^ 16 + shamt * 2 ^ 10) 10 (by omega) (by omega),
    or_eq_add_of_dvd (a := base + rm * 2 ^ 16 + shamt * 2 ^ 10 + rn * 2 ^ 5) 5 (by omega) (by omega)]
  rfl

/-- What makes an R-format operation of a constructor: the format's check, its word, and a meaning that writes one result to
`rd` (R100, R109). -/
theorem rOperation_of_writeResult {op : Nat → Nat → Nat → Int → Instr} {base : Nat} {f : Word → Word → Nat → Word}
    (hcheck : ∀ rd rn rm shamt, (op rd rn rm shamt).wellFormed = rOperandsOk rd rn rm shamt)
    (hbase : 2 ^ 21 ∣ base) (hword : ∀ rd rn rm shamt, encode (op rd rn rm shamt) = encodeR base rd rn rm shamt)
    (hexec : ∀ (s : State) (rd rn rm shamt : Nat), exec (op rd rn rm shamt) s =
      s.writeResult (op rd rn rm shamt) rd (f (s.readReg rn) (s.readReg rm) shamt)) :
    ROperation op base f := by
  refine ⟨fun _ _ _ _ => raisesOutOfDomain _, fun s rd rn rm shamt hrd hrn hrm hshamt => ?_⟩
  have hw : (op rd rn rm shamt).WellFormed := by
    rw [Instr.WellFormed, hcheck, rOperandsOk_iff]
    omega
  refine ⟨exec_writesOnly (hexec ..) hw hrd, ?_⟩
  rw [encodeR_eq_or hbase hrd hrn hrm hshamt, ← hword]
  exact Proofs.decodeInvertsEncode _ hw

/-- An R-format operation leaves its result in a destination that is not hardwired. -/
theorem exec_readReg_of_rOperation {op : Nat → Nat → Nat → Int → Instr} {base : Nat} {f : Word → Word → Nat → Word}
    (h : ROperation op base f) {s : State} {rd rn rm shamt : Nat} (hrd : rd < 32) (hrn : rn < 32) (hrm : rm < 32)
    (hshamt : shamt < 64) (hz : ¬ (s.cfg.r31IsZero = true ∧ rd = 31)) :
    ∃ t, exec (op rd rn rm shamt) s = .next t ∧ t.readReg rd = f (s.readReg rn) (s.readReg rm) shamt := by
  obtain ⟨-, hcompletes⟩ := h
  obtain ⟨⟨t, ht, hwrites⟩, -⟩ := hcompletes s rd rn rm shamt hrd hrn hrm hshamt
  exact ⟨t, ht, readReg_of_writesOnly hwrites hrd hz⟩

/-! ### The spec's arithmetic modulo 2^64 and the words' own (R6, R110) -/

theorem wrap64_add (a b : Word) : wrap64 (a.toNat + b.toNat) = a + b := by
  apply BitVec.eq_of_toNat_eq
  rw [BitVec.toNat_ofInt, BitVec.toNat_add]
  omega

theorem wrap64_sub (a b : Word) : wrap64 (a.toNat - b.toNat) = a - b := by
  apply BitVec.eq_of_toNat_eq
  rw [BitVec.toNat_ofInt, BitVec.toNat_sub]
  omega

theorem wrap64_toInt_div (a : Word) (k : Nat) : wrap64 (a.toInt / 2 ^ k) = shiftRightArith a k := by
  have h : (shiftRightArith a k).toInt = a.toInt / 2 ^ k := by
    simp [shiftRightArith, BitVec.toInt_sshiftRight, Int.shiftRight_eq_div_pow]
  rw [← h]
  exact BitVec.ofInt_toInt

theorem wrap64_toNat_div (a : Word) (k : Nat) : wrap64 (a.toNat / 2 ^ k) = shiftRightLogical a k := by
  apply BitVec.eq_of_toNat_eq
  have h : wrap64 (a.toNat / 2 ^ k) = BitVec.ofNat 64 (a.toNat / 2 ^ k) :=
    mod_cast BitVec.ofInt_natCast 64 (a.toNat / 2 ^ k)
  have hlt : a.toNat / 2 ^ k < 2 ^ 64 := (Nat.div_le_self ..).trans_lt a.isLt
  rw [h, BitVec.toNat_ofNat, Nat.mod_eq_of_lt hlt]
  simp [shiftRightLogical, Nat.shiftRight_eq_div_pow]

theorem wrap64_toNat_mul (a : Word) (k : Nat) : wrap64 (a.toNat * 2 ^ k) = shiftLeft a k := by
  apply BitVec.eq_of_toNat_eq
  have h : wrap64 (a.toNat * 2 ^ k) = BitVec.ofNat 64 (a.toNat * 2 ^ k) :=
    mod_cast BitVec.ofInt_natCast 64 (a.toNat * 2 ^ k)
  rw [h, BitVec.toNat_ofNat]
  simp [shiftLeft, Nat.shiftLeft_eq]

/-! ### The sign of a shifted value (R106, R107) -/

/-- LSR by a non-zero amount clears bit 63. -/
theorem shiftRightLogical_nonneg (a : Word) {k : Nat} (hk : 0 < k) : 0 ≤ (shiftRightLogical a k).toInt := by
  apply BitVec.toInt_nonneg_of_msb_false
  simp [shiftRightLogical, BitVec.msb_ushiftRight, hk]

/-- ASR keeps bit 63. -/
theorem shiftRightArith_neg {a : Word} (ha : a.toInt < 0) (k : Nat) : (shiftRightArith a k).toInt < 0 := by
  apply BitVec.toInt_neg_of_msb_true
  rw [shiftRightArith, BitVec.msb_sshiftRight, BitVec.msb_eq_toInt]
  exact decide_eq_true ha

end Sys2Proof.Machine
end

section
/-! PROOFS. The obligations on the R-format instructions (41_r_format.md), settled. -/

namespace Sys2Proof.Proofs

open Sys2Proof.Machine Sys2Proof.Claims

/-- Settles O14: the meanings compute the words' own bitwise operations. -/
theorem bitwiseOperations : Obligations.BitwiseOperations := by
  refine ⟨?_, ?_, ?_⟩ <;>
    exact rOperation_of_writeResult (fun _ _ _ _ => rfl) (by decide) (fun _ _ _ _ => rfl) fun _ _ _ _ _ => rfl

/-- Settles O15: addition and subtraction of words are modulo 2^64. -/
theorem addAndSubWrap : Obligations.AddAndSubWrap := by
  refine ⟨?add, ?sub⟩ <;>
    refine rOperation_of_writeResult (fun _ _ _ _ => rfl) (by decide) (fun _ _ _ _ => rfl) fun s rd rn rm shamt => ?_
  case add => rw [wrap64_add]; rfl
  case sub => rw [wrap64_sub]; rfl

/-- Settles O16: each shift is the division or the product of its rule. -/
theorem shiftsByConstant : Obligations.ShiftsByConstant := by
  refine ⟨?asr, ?lsr, ?lsl⟩ <;>
    refine rOperation_of_writeResult (fun _ _ _ _ => rfl) (by decide) (fun _ _ _ _ => rfl) fun s rd rn rm shamt => ?_
  case asr => rw [wrap64_toInt_div]; rfl
  case lsr => rw [wrap64_toNat_div]; rfl
  case lsl => rw [wrap64_toNat_mul]; rfl

/-- Settles O17: LSR clears bit 63, which ASR keeps. -/
theorem lsrDiffersFromAsrOnNegatives : Obligations.LsrDiffersFromAsrOnNegatives := by
  intro s rd rn rm shamt hrd hrn hrm hpos hshamt hz hneg
  obtain ⟨hasr, hlsr, -⟩ := shiftsByConstant
  obtain ⟨t, ht, htread⟩ := exec_readReg_of_rOperation hlsr hrd hrn hrm hshamt hz
  obtain ⟨u, hu, huread⟩ := exec_readReg_of_rOperation hasr hrd hrn hrm hshamt hz
  refine ⟨t, u, ht, hu, ?_, ?_⟩
  · rw [htread, wrap64_toNat_div]
    exact shiftRightLogical_nonneg _ hpos
  · rw [huread, wrap64_toInt_div]
    exact shiftRightArith_neg hneg _

end Sys2Proof.Proofs
end

section
/-! PROOFS. The word and the immediate of an I-format instruction (42_i_format.md R120; 30_encoding.md R64). -/

namespace Sys2Proof.Machine

open Sys2Proof.Claims

/-- The word as the rules write it is the encoder's: the fields do not overlap. -/
theorem encodeI_eq_or {base rd rn : Nat} {imm : Int} (hbase : 2 ^ 22 ∣ base) (hrd : rd < 32) (hrn : rn < 32) :
    BitVec.ofNat 32 (base ||| (imm % 4096).toNat <<< 10 ||| rn <<< 5 ||| rd) = encodeI base rd rn imm := by
  simp only [Nat.shiftLeft_eq]
  rw [or_eq_add_of_dvd (a := base) 22 hbase (by omega),
    or_eq_add_of_dvd (a := base + (imm % 4096).toNat * 2 ^ 10) 10 (by omega) (by omega),
    or_eq_add_of_dvd (a := base + (imm % 4096).toNat * 2 ^ 10 + rn * 2 ^ 5) 5 (by omega) (by omega)]
  rfl

/-- What makes an I-format operation of a constructor: the format's check, its word, and a meaning that writes one result to
`rd` (R120). -/
theorem iOperation_of_writeResult {op : Nat → Nat → Int → Instr} {base : Nat} {f : Int → Int → Int}
    (hcheck : ∀ rd rn imm, (op rd rn imm).wellFormed = iOperandsOk rd rn imm)
    (hbase : 2 ^ 22 ∣ base) (hword : ∀ rd rn imm, encode (op rd rn imm) = encodeI base rd rn imm)
    (hexec : ∀ (s : State) (rd rn : Nat) (imm : Int), exec (op rd rn imm) s =
      s.writeResult (op rd rn imm) rd (wrap64 (f (s.readReg rn).toNat imm))) :
    IOperation op base f := by
  refine ⟨fun _ _ _ => raisesOutOfDomain _, fun s rd rn imm hrd hrn hlo hhi => ?_⟩
  have hw : (op rd rn imm).WellFormed := by
    rw [Instr.WellFormed, hcheck, iOperandsOk_iff]
    exact ⟨hrd, hrn, hlo, hhi⟩
  refine ⟨exec_writesOnly (hexec ..) hw hrd, ?_⟩
  rw [encodeI_eq_or hbase hrd hrn, ← hword]
  exact Proofs.decodeInvertsEncode _ hw

/-- The sum of R121 is the word's own sum with the sign-extended immediate. -/
theorem wrap64_add_imm (a : Word) (imm : Int) : wrap64 (a.toNat + imm) = a + wrap64 imm := by
  have hread : wrap64 a.toNat = a := by simp
  calc wrap64 (a.toNat + imm) = wrap64 a.toNat + wrap64 imm := BitVec.ofInt_add ..
    _ = a + wrap64 imm := by rw [hread]

/-- The difference of R122 is the word's own difference with the sign-extended immediate. -/
theorem wrap64_sub_imm (a : Word) (imm : Int) : wrap64 (a.toNat - imm) = a - wrap64 imm := by
  calc wrap64 (a.toNat - imm) = a + wrap64 (-imm) := wrap64_add_imm a (-imm)
    _ = a + -wrap64 imm := by rw [wrap64, BitVec.ofInt_neg]
    _ = a - wrap64 imm := (BitVec.sub_eq_add_neg ..).symm

end Sys2Proof.Machine
end

section
/-! PROOFS. The obligation on the I-format instructions (42_i_format.md), settled. -/

namespace Sys2Proof.Proofs

open Sys2Proof.Machine Sys2Proof.Claims

/-- Settles O18: the spec's sum and difference modulo 2^64 are those of the words. -/
theorem immediateArithmetic : Obligations.ImmediateArithmetic := by
  refine ⟨?addi, ?subi⟩ <;>
    refine iOperation_of_writeResult (fun _ _ _ => rfl) (by decide) (fun _ _ _ => rfl) fun s rd rn imm => ?_
  case addi => rw [wrap64_add_imm]; rfl
  case subi => rw [wrap64_sub_imm]; rfl

end Sys2Proof.Proofs
end

section
/-! PROOFS. What a D-format instruction does, its word and its effective address (43_d_format.md R130 to R132; 30_encoding.md
R65). -/

namespace Sys2Proof.Machine

open Sys2Proof.Claims

/-! ### The word and the effective address (R65, R130) -/

/-- The word as the rules write it is the encoder's: the fields do not overlap. -/
theorem encodeD_eq_or {base rt rn : Nat} {offset : Int} (hbase : 2 ^ 21 ∣ base) (hrt : rt < 32) (hrn : rn < 32) :
    BitVec.ofNat 32 (base ||| (offset % 512).toNat <<< 12 ||| rn <<< 5 ||| rt) = encodeD base rt rn offset := by
  simp only [Nat.shiftLeft_eq]
  rw [or_eq_add_of_dvd (a := base) 21 hbase (by omega),
    or_eq_add_of_dvd (a := base + (offset % 512).toNat * 2 ^ 12) 12 (by omega) (by omega),
    or_eq_add_of_dvd (a := base + (offset % 512).toNat * 2 ^ 12 + rn * 2 ^ 5) 5 (by omega) (by omega)]
  rfl

/-- The effective address is the spec's sum modulo 2^64. -/
theorem State.effectiveAddress_eq_wrap64 (s : State) (rn : Nat) (offset : Int) :
    s.effectiveAddress rn offset = wrap64 ((s.readReg rn).toNat + 4 * offset) :=
  (wrap64_add_imm ..).symm

/-! ### The shape of a D-format operation (R35, R58, R130) -/

/-- A D-format operation: with an aligned base it completes in the state `after`, with a misaligned one it raises
MisalignedDataAddress, out of range it raises MalformedOperand, and the word `base | (offset mod 512)<<12 | rn<<5 | rt` stands
for it. -/
def DOperation (op : Nat → Nat → Int → Instr) (base : Nat) (after : State → Nat → Nat → Int → State) : Prop :=
  (∀ (rt rn : Nat) (offset : Int), RaisesOutOfDomain (op rt rn offset)) ∧
  ∀ (s : State) (rt rn : Nat) (offset : Int), rt < 32 → rn < 32 → -256 ≤ offset → offset ≤ 255 →
    ((s.readReg rn).toNat % 4 = 0 → exec (op rt rn offset) s = .next (after s rt rn offset)) ∧
    ((s.readReg rn).toNat % 4 ≠ 0 → exec (op rt rn offset) s =
      .next (Raised s .misalignedDataAddress (.effectiveAddress (s.effectiveAddress rn offset)))) ∧
    decodeInstr (BitVec.ofNat 32 (base ||| (offset % 512).toNat <<< 12 ||| rn <<< 5 ||| rt)) = some (op rt rn offset)

/-- What makes a D-format operation of a constructor: the format's check, its word, and a meaning that checks the operands and
then the alignment. -/
theorem dOperation_of_alignedAccess {op : Nat → Nat → Int → Instr} {base : Nat} {after : State → Nat → Nat → Int → State}
    (hcheck : ∀ rt rn offset, (op rt rn offset).wellFormed = dOperandsOk rt rn offset)
    (hbase : 2 ^ 21 ∣ base) (hword : ∀ rt rn offset, encode (op rt rn offset) = encodeD base rt rn offset)
    (hexec : ∀ (s : State) (rt rn : Nat) (offset : Int), exec (op rt rn offset) s =
      s.checked (op rt rn offset) (s.alignedAccess (s.effectiveAddress rn offset) (.next (after s rt rn offset)))) :
    DOperation op base after := by
  refine ⟨fun _ _ _ => raisesOutOfDomain _, fun s rt rn offset hrt hrn hlo hhi => ?_⟩
  have hw : (op rt rn offset).WellFormed := by
    rw [Instr.WellFormed, hcheck, dOperandsOk_iff]
    exact ⟨hrt, hrn, hlo, hhi⟩
  have haligned := s.aligned_effectiveAddress rn offset
  rw [hexec, State.checked_ok hw]
  refine ⟨fun h => State.alignedAccess_ok (haligned.2 h),
    fun h => State.alignedAccess_bad (mt haligned.1 h), ?_⟩
  rw [encodeD_eq_or hbase hrt hrn, ← hword]
  exact Proofs.decodeInvertsEncode _ hw

/-! ### LDUR and STUR (R131, R132) -/

/-- The state a completed LDUR leaves (R131). -/
def State.afterLdur (s : State) (rt rn : Nat) (offset : Int) : State :=
  (s.writeReg rt (s.memRead (s.effectiveAddress rn offset))).advance

/-- The state a completed STUR leaves (R132). -/
def State.afterStur (s : State) (rt rn : Nat) (offset : Int) : State :=
  (s.memWrite (s.effectiveAddress rn offset) (s.readReg rt)).advance

theorem dOperation_ldur : DOperation .ldur 0xF8400000 State.afterLdur :=
  dOperation_of_alignedAccess (fun _ _ _ => rfl) (by decide) (fun _ _ _ => rfl) fun _ _ _ _ => rfl

theorem dOperation_stur : DOperation .stur 0xF8000000 State.afterStur :=
  dOperation_of_alignedAccess (fun _ _ _ => rfl) (by decide) (fun _ _ _ => rfl) fun _ _ _ _ => rfl

/-- An LDUR that raises nothing is its load and the advance of `pc`, and its fields are in their domain. -/
theorem exec_ldur {s t : State} {rt rn : Nat} {offset : Int} (h : exec (.ldur rt rn offset) s = .next t)
    (ht : t.run ≠ .faulted) : rt < 32 ∧ t = s.afterLdur rt rn offset := by
  rcases State.checked_next h with ⟨hw, h⟩ | ⟨-, rfl⟩
  · rcases State.alignedAccess_next h with ⟨-, h⟩ | ⟨-, rfl⟩
    · cases h; exact ⟨((dOperandsOk_iff ..).1 hw).1, rfl⟩
    · exact absurd rfl ht
  · exact absurd rfl ht

theorem State.afterLdur_writesOnly (s : State) {rt : Nat} (hrt : rt < 32) (rn : Nat) (offset : Int) :
    WritesOnly s (s.afterLdur rt rn offset) rt (s.memRead (s.effectiveAddress rn offset)) :=
  writesOnly_writeReg s hrt _

theorem State.memRead_of_entry {s : State} {ea v : Word} (h : Memory.entry s.mem ea.toInt = some v) :
    s.memRead ea = v := by
  simp [memRead, Memory.read, h]

/-- A write leaves `mem_hi` at the larger of itself and the address (R34). -/
theorem raiseHi_some (hi a : Int) : raiseHi (some hi) a = some (max hi a) := by
  by_cases h : hi < a
  · simp [raiseHi, h, h.le]
  · simp [raiseHi, h, not_lt.1 h]

end Sys2Proof.Machine
end

section
/-! PROOFS. The obligations on the D-format instructions (43_d_format.md), settled. -/

namespace Sys2Proof.Proofs

open Sys2Proof.Machine Sys2Proof.Claims

/-- Settles O19: a completed LDUR writes one register, with what memory reads as at the effective address. -/
theorem ldurLoadsWholeCell : Obligations.LdurLoadsWholeCell := by
  obtain ⟨hdomain, hldur⟩ := dOperation_ldur
  refine ⟨hdomain, fun s rt rn offset hrt hrn hlo hhi => ?_⟩
  obtain ⟨haligned, hmisaligned, hword⟩ := hldur s rt rn offset hrt hrn hlo hhi
  exact ⟨s.effectiveAddress_eq_wrap64 rn offset,
    fun h => ⟨_, haligned h, s.afterLdur_writesOnly hrt rn offset⟩, hmisaligned, hword⟩

/-- Settles O20: a completed STUR makes one write to memory, whose entries and `mem_hi` are known. -/
theorem sturStoresWholeRegister : Obligations.SturStoresWholeRegister := by
  obtain ⟨hdomain, hstur⟩ := dOperation_stur
  refine ⟨hdomain, fun s rt rn offset hrt hrn hlo hhi => ?_⟩
  obtain ⟨haligned, hmisaligned, hword⟩ := hstur s rt rn offset hrt hrn hlo hhi
  refine ⟨s.effectiveAddress_eq_wrap64 rn offset,
    fun h => ⟨_, haligned h, rfl, fun a => ?entries, fun hnone => ?first, fun hi hsome => ?raised⟩, hmisaligned, hword⟩
  case entries =>
    simp only [State.afterStur, State.advance_mem, State.memWrite_mem, Memory.entry_write, eq_comm (a := a)]
  case first => simp [State.afterStur, hnone, raiseHi]
  case raised => simp [State.afterStur, hsome, raiseHi_some]

/-- Settles O38: the STUR's value is in the cell, no step until the LDUR reaches it, and the LDUR reads that cell. -/
theorem storeThenLoadReturnsValue : Obligations.StoreThenLoadReturnsValue := by
  intro n s s' t t' rs rb rd rc j k hstur hstore hs' hsteps hno hldur hea hz hload ht'
  obtain ⟨hstored, hkept⟩ := memoryOrderIsProgramOrder
  have hcell : Memory.entry t.mem (s.effectiveAddress rb j).toInt = some (s.readReg rs) := by
    rw [hkept n s' t _ hsteps hno, hstored s s' rs rb j hstur hstore hs']
  obtain ⟨u, r, hexec, hu, rfl⟩ := step_of_fetches hldur hload ht'
  obtain ⟨hrd, rfl⟩ := exec_ldur hexec hu
  calc ((t.afterLdur rd rc k).commit r).readReg rd
    _ = (t.afterLdur rd rc k).readReg rd := State.readReg_congr (State.commit_x ..) (State.commit_cfg ..) rd
    _ = t.memRead (t.effectiveAddress rc k) := readReg_of_writesOnly (t.afterLdur_writesOnly hrd rc k) hrd hz
    _ = s.readReg rs := by rw [hea, State.memRead_of_entry hcell]

end Sys2Proof.Proofs
end

section
/-! PROOFS. The words and the targets of the branches (44_b_cb_format.md R140 to R143; 30_encoding.md R66, R67). -/

namespace Sys2Proof.Machine

open Sys2Proof.Claims

/-! ### The words (R66, R67) -/

/-- The word as the rule writes it is the encoder's: the offset stands below the opcode. -/
theorem encodeB_eq_or (offset : Int) :
    BitVec.ofNat 32 (0x14000000 ||| (offset % 67108864).toNat) = encode (.b offset) := by
  rw [or_eq_add_of_dvd (a := 0x14000000) 26 (by decide) (by omega)]
  rfl

/-- The word as the rules write it is the encoder's: the fields do not overlap. -/
theorem encodeCB_eq_or {base rt : Nat} {offset : Int} (hbase : 2 ^ 24 ∣ base) (hrt : rt < 32) :
    BitVec.ofNat 32 (base ||| (offset % 524288).toNat <<< 5 ||| rt) = encodeCB base rt offset := by
  simp only [Nat.shiftLeft_eq]
  rw [or_eq_add_of_dvd (a := base) 24 hbase (by omega),
    or_eq_add_of_dvd (a := base + (offset % 524288).toNat * 2 ^ 5) 5 (by omega) (by omega)]
  rfl

/-! ### Targets and conditions (R140, R142, R143) -/

/-- The target is the branch's own address plus `4 * offset`, modulo 2^64. -/
theorem State.branch_pc_toNat (s : State) (offset : Int) :
    ((s.branch offset).pc.toNat : Int) = (s.pc.toNat + 4 * offset) % 2 ^ 64 := by
  rw [branch_pc, ← wrap64_add_imm, BitVec.toNat_ofInt]
  omega

theorem State.cbzTaken_iff (s : State) (rt : Nat) : s.cbzTaken rt = true ↔ (s.readReg rt).toNat = 0 := beq_iff_eq

theorem State.cbnzTaken_iff (s : State) (rt : Nat) : s.cbnzTaken rt = true ↔ (s.readReg rt).toNat ≠ 0 := bne_iff_ne

/-! ### The shape of a CB-format operation (R140) -/

/-- What makes a CB-format operation of a constructor: the format's check, its word, and a meaning that branches when `taken`
and else advances, where `taken` is the test of the register's value. -/
theorem cbOperation_of_branchIf {op : Nat → Int → Instr} {base : Nat} {test : Nat → Prop} {taken : State → Nat → Bool}
    (hcheck : ∀ rt offset, (op rt offset).wellFormed = cbOperandsOk rt offset)
    (hbase : 2 ^ 24 ∣ base) (hword : ∀ rt offset, encode (op rt offset) = encodeCB base rt offset)
    (htaken : ∀ s rt, taken s rt = true ↔ test (s.readReg rt).toNat)
    (hexec : ∀ (s : State) (rt : Nat) (offset : Int), exec (op rt offset) s =
      s.checked (op rt offset) (.next (if taken s rt then s.branch offset else s.advance))) :
    CBOperation op base test := by
  refine ⟨fun _ _ => raisesOutOfDomain _, fun s rt offset hrt hlo hhi => ?_⟩
  have hw : (op rt offset).WellFormed := by
    rw [Instr.WellFormed, hcheck, cbOperandsOk_iff]
    exact ⟨hrt, hlo, hhi⟩
  rw [hexec, State.checked_ok hw, ← htaken]
  refine ⟨fun h => ?taken, fun h => ?notTaken, ?word⟩
  case taken => rw [if_pos h]; rfl
  case notTaken => rw [if_neg h]; rfl
  case word =>
    rw [encodeCB_eq_or hbase hrt, ← hword]
    exact Proofs.decodeInvertsEncode _ hw

end Sys2Proof.Machine
end

section
/-! PROOFS. The obligations on the branches (44_b_cb_format.md), settled. -/

namespace Sys2Proof.Proofs

open Sys2Proof.Machine Sys2Proof.Claims

/-- Settles O21: in range, B is the branch itself, whose target is the spec's sum modulo 2^64. -/
theorem branchIsRelativeToItself : Obligations.BranchIsRelativeToItself := by
  refine ⟨fun _ => raisesOutOfDomain _, fun s offset hlo hhi => ?_⟩
  have hw : Instr.WellFormed (.b offset) := (boffOk_iff offset).2 ⟨hlo, hhi⟩
  have hexec : exec (.b offset) s = .next (s.branch offset) := State.checked_ok hw
  refine ⟨⟨s.branch offset, hexec, rfl, s.branch_pc_toNat offset⟩, ?word⟩
  case word =>
    rw [encodeB_eq_or]
    exact decodeInvertsEncode _ hw

/-- Settles O22: the two meanings branch on the register's whole value, CBZ when it is zero and CBNZ when it is not. -/
theorem conditionalBranches : Obligations.ConditionalBranches :=
  ⟨cbOperation_of_branchIf (fun _ _ => rfl) (by decide) (fun _ _ => rfl) State.cbzTaken_iff fun _ _ _ => rfl,
    cbOperation_of_branchIf (fun _ _ => rfl) (by decide) (fun _ _ => rfl) State.cbnzTaken_iff fun _ _ _ => rfl⟩

end Sys2Proof.Proofs
end

section
/-! PROOFS. The word of an IM-format instruction, and the 16-bit chunks of a value (45_im_format.md R150 to R153; 30_encoding.md
R68). -/

namespace Sys2Proof.Machine

open Sys2Proof.Claims

/-! ### The word and the shape of an IM-format operation (R68, R150) -/

/-- The word as the rules write it is the encoder's: the fields do not overlap. -/
theorem encodeIM_eq_or {base rd imm16 shift : Nat} (hbase : 2 ^ 23 ∣ base) (hrd : rd < 32) (himm : imm16 < 65536)
    (hshift : shift < 4) :
    BitVec.ofNat 32 (base ||| shift <<< 21 ||| imm16 <<< 5 ||| rd) = encodeIM base rd imm16 shift := by
  simp only [Nat.shiftLeft_eq]
  rw [or_eq_add_of_dvd (a := base) 23 hbase (by omega),
    or_eq_add_of_dvd (a := base + shift * 2 ^ 21) 21 (by omega) (by omega),
    or_eq_add_of_dvd (a := base + shift * 2 ^ 21 + imm16 * 2 ^ 5) 5 (by omega) (by omega)]
  rfl

/-- An IM-format operation: with all operands in range it completes with `f x[rd] imm16 shift` in `x[rd]`, on any other operands
it raises MalformedOperand, and the word `base | shift<<21 | imm16<<5 | rd` stands for it. -/
def IMOperation (op : Nat → Nat → Nat → Instr) (base : Nat) (f : Word → Nat → Nat → Word) : Prop :=
  (∀ rd imm16 shift : Nat, RaisesOutOfDomain (op rd imm16 shift)) ∧
  ∀ (s : State) (rd imm16 shift : Nat), rd < 32 → imm16 < 65536 → shift < 4 →
    (∃ t, exec (op rd imm16 shift) s = .next t ∧ WritesOnly s t rd (f (s.readReg rd) imm16 shift)) ∧
    decodeInstr (BitVec.ofNat 32 (base ||| shift <<< 21 ||| imm16 <<< 5 ||| rd)) = some (op rd imm16 shift)

/-- What makes an IM-format operation of a constructor: the format's check, its word, and a meaning that writes one result to
`rd`. -/
theorem imOperation_of_writeResult {op : Nat → Nat → Nat → Instr} {base : Nat} {f : Word → Nat → Nat → Word}
    (hcheck : ∀ rd imm16 shift, (op rd imm16 shift).wellFormed = imOperandsOk rd imm16 shift)
    (hbase : 2 ^ 23 ∣ base) (hword : ∀ rd imm16 shift, encode (op rd imm16 shift) = encodeIM base rd imm16 shift)
    (hexec : ∀ (s : State) (rd imm16 shift : Nat), exec (op rd imm16 shift) s =
      s.writeResult (op rd imm16 shift) rd (f (s.readReg rd) imm16 shift)) :
    IMOperation op base f := by
  refine ⟨fun _ _ _ => raisesOutOfDomain _, fun s rd imm16 shift hrd himm hshift => ?_⟩
  have hw : (op rd imm16 shift).WellFormed := by
    rw [Instr.WellFormed, hcheck, imOperandsOk_iff]
    exact ⟨hrd, himm, hshift⟩
  refine ⟨exec_writesOnly (hexec ..) hw hrd, ?_⟩
  rw [encodeIM_eq_or hbase hrd himm hshift, ← hword]
  exact Proofs.decodeInvertsEncode _ hw

/-- The value MOVK leaves in its destination (R152). -/
def replaceChunk (old : Word) (imm16 shift : Nat) : Word := (old &&& ~~~(chunkMask shift)) ||| chunkValue imm16 shift

theorem imOperation_movz : IMOperation .movz 0xD2800000 fun _ => chunkValue :=
  imOperation_of_writeResult (fun _ _ _ => rfl) (by decide) (fun _ _ _ => rfl) fun _ _ _ _ => rfl

theorem imOperation_movk : IMOperation .movk 0xF2800000 replaceChunk :=
  imOperation_of_writeResult (fun _ _ _ => rfl) (by decide) (fun _ _ _ => rfl) fun _ _ _ _ => rfl

/-! ### The bits of the chunk operands (R150, R151, R152) -/

/-- The product of R151 is the chunk's value. -/
theorem wrap64_chunk {imm16 : Nat} (himm : imm16 < 65536) (shift : Nat) :
    wrap64 ((imm16 : Int) * 2 ^ (16 * shift)) = chunkValue imm16 shift := by
  have hread : (BitVec.ofNat 64 imm16).toNat = imm16 := Nat.mod_eq_of_lt (by omega)
  have h := wrap64_toNat_mul (BitVec.ofNat 64 imm16) (16 * shift)
  rwa [hread] at h

theorem getLsbD_chunkValue {imm16 shift k : Nat} (himm : imm16 < 65536) (hk : k < 64) :
    (chunkValue imm16 shift).getLsbD k =
      (decide (16 * shift ≤ k ∧ k < 16 * shift + 16) && imm16.testBit (k - 16 * shift)) := by
  have hshifted : (chunkValue imm16 shift).getLsbD k = (decide (16 * shift ≤ k) && imm16.testBit (k - 16 * shift)) := by
    have hsource : k - 16 * shift < 64 := by omega
    rw [chunkValue, BitVec.getLsbD_shiftLeft, BitVec.getLsbD_ofNat]
    simp [hk, hsource, ← decide_not]
  by_cases hhigh : k < 16 * shift + 16
  · simp [hshifted, hhigh]
  · have hbit : imm16.testBit (k - 16 * shift) = false :=
      Nat.testBit_lt_two_pow (himm.trans_le (Nat.pow_le_pow_right (n := 2) (i := 16) (by decide) (by omega)))
    simp [hshifted, hbit]

/-- The mask is the value of the chunk whose bits are all set. -/
theorem getLsbD_chunkMask {shift k : Nat} (hk : k < 64) :
    (chunkMask shift).getLsbD k = decide (16 * shift ≤ k ∧ k < 16 * shift + 16) := by
  have hmask : chunkMask shift = chunkValue 65535 shift := rfl
  have hones : Nat.testBit 65535 (k - 16 * shift) = decide (k - 16 * shift < 16) :=
    Nat.testBit_two_pow_sub_one 16 _
  rw [hmask, getLsbD_chunkValue (by decide) hk, hones, ← Bool.decide_and, decide_eq_decide]
  omega

theorem getLsbD_replaceChunk (old : Word) {imm16 shift k : Nat} (himm : imm16 < 65536) (hk : k < 64) :
    (replaceChunk old imm16 shift).getLsbD k =
      if 16 * shift ≤ k ∧ k < 16 * shift + 16 then imm16.testBit (k - 16 * shift) else old.getLsbD k := by
  rw [replaceChunk, BitVec.getLsbD_or, BitVec.getLsbD_and, BitVec.getLsbD_not, getLsbD_chunkMask hk,
    getLsbD_chunkValue himm hk]
  by_cases hin : 16 * shift ≤ k ∧ k < 16 * shift + 16
  · rw [if_pos hin, decide_eq_true hin]
    simp
  · rw [if_neg hin, decide_eq_false hin]
    simp [hk]

/-! ### A constant built chunk by chunk (R153) -/

/-- The immediate of the move that places chunk `j` of the constant. -/
def chunkOf (c : Word) (j : Nat) : Nat := c.toNat / 2 ^ (16 * j) % 65536

/-- The constant's lowest `n` chunks, with zeros above. -/
def lowChunks (c : Word) (n : Nat) : Word := (c.setWidth (16 * n)).setWidth 64

theorem chunkOf_lt (c : Word) (j : Nat) : chunkOf c j < 65536 := Nat.mod_lt _ (by decide)

theorem testBit_chunkOf (c : Word) {j k : Nat} (hlow : 16 * j ≤ k) (hhigh : k < 16 * j + 16) :
    (chunkOf c j).testBit (k - 16 * j) = c.getLsbD k := by
  have hlt : k - 16 * j < 16 := by omega
  calc (c.toNat / 2 ^ (16 * j) % 2 ^ 16).testBit (k - 16 * j)
    _ = c.toNat.testBit (k - 16 * j + 16 * j) := by
      rw [Nat.testBit_mod_two_pow, Nat.testBit_div_two_pow, decide_eq_true hlt, Bool.true_and]
    _ = c.getLsbD k := by rw [Nat.sub_add_cancel hlow, BitVec.testBit_toNat]

theorem getLsbD_lowChunks (c : Word) (n : Nat) {k : Nat} (hk : k < 64) :
    (lowChunks c n).getLsbD k = (decide (k < 16 * n) && c.getLsbD k) := by
  simp [lowChunks, hk]

theorem lowChunks_zero (c : Word) : lowChunks c 0 = 0#64 := by simp [lowChunks, BitVec.of_length_zero]

theorem lowChunks_four (c : Word) : lowChunks c 4 = c := by simp [lowChunks]

/-- MOVK of the next chunk extends the part that is in place. -/
theorem replaceChunk_lowChunks (c : Word) (j : Nat) :
    replaceChunk (lowChunks c j) (chunkOf c j) j = lowChunks c (j + 1) := by
  apply BitVec.eq_of_getLsbD_eq
  intro k hk
  rw [getLsbD_replaceChunk _ (chunkOf_lt c j) hk, getLsbD_lowChunks c j hk, getLsbD_lowChunks c (j + 1) hk]
  by_cases hin : 16 * j ≤ k ∧ k < 16 * j + 16
  · obtain ⟨hlow, hhigh⟩ := hin
    have hnext : k < 16 * (j + 1) := by omega
    simp [hlow, hhigh, hnext, testBit_chunkOf c hlow hhigh]
  · have hsame : k < 16 * (j + 1) ↔ k < 16 * j := by omega
    simp only [hin, hsame, if_false]

/-- MOVZ of the lowest chunk starts it: the chunk replaces that of zero. -/
theorem chunkValue_chunkOf_zero (c : Word) : chunkValue (chunkOf c 0) 0 = lowChunks c 1 := by
  simpa [replaceChunk, lowChunks_zero] using replaceChunk_lowChunks c 0

theorem frame_of_writesOnly {s t : State} {rd : Nat} {v : Word} (h : WritesOnly s t rd v) :
    t.pc = s.pc + 4#64 ∧ t.mem = s.mem ∧ t.cfg = s.cfg := by
  obtain ⟨hframe, -⟩ := h
  refine ⟨?_, ?_, ?_⟩ <;> rw [hframe]

/-- `t` stands `n` moves after `s`: the lowest `n` chunks of `c` are in `x[rd]`, and `pc` alone has changed beside the
registers. -/
structure Building (s t : State) (rd : Nat) (c : Word) (n : Nat) : Prop where
  read : t.readReg rd = lowChunks c n
  pc : t.pc = s.pc + BitVec.ofNat 64 (4 * n)
  mem : t.mem = s.mem
  cfg : t.cfg = s.cfg

/-- The first move. -/
theorem exec_movz_building (s : State) {rd : Nat} (c : Word) (hrd : rd < 32)
    (hz : ¬ (s.cfg.r31IsZero = true ∧ rd = 31)) :
    ∃ t, exec (.movz rd (chunkOf c 0) 0) s = .next t ∧ Building s t rd c 1 := by
  obtain ⟨-, hmovz⟩ := imOperation_movz
  obtain ⟨⟨t, ht, hwrites⟩, -⟩ := hmovz s rd (chunkOf c 0) 0 hrd (chunkOf_lt c 0) (by decide)
  obtain ⟨hpc, hmem, hcfg⟩ := frame_of_writesOnly hwrites
  exact ⟨t, ht, (readReg_of_writesOnly hwrites hrd hz).trans (chunkValue_chunkOf_zero c), hpc, hmem, hcfg⟩

/-- Each further move places the next chunk. -/
theorem Building.exec_movk {s t : State} {rd j : Nat} {c : Word} (h : Building s t rd c j) (hrd : rd < 32)
    (hz : ¬ (s.cfg.r31IsZero = true ∧ rd = 31)) (hj : j < 4) :
    ∃ u, exec (.movk rd (chunkOf c j) j) t = .next u ∧ Building s u rd c (j + 1) := by
  obtain ⟨-, hmovk⟩ := imOperation_movk
  obtain ⟨⟨u, hu, hwrites⟩, -⟩ := hmovk t rd (chunkOf c j) j hrd (chunkOf_lt c j) hj
  obtain ⟨hpc, hmem, hcfg⟩ := frame_of_writesOnly hwrites
  refine ⟨u, hu, ?read, ?pc, hmem.trans h.mem, hcfg.trans h.cfg⟩
  case read => rw [readReg_of_writesOnly hwrites hrd (h.cfg ▸ hz), h.read, replaceChunk_lowChunks]
  case pc => rw [hpc, h.pc, BitVec.add_assoc, Nat.mul_succ, BitVec.ofNat_add]

end Sys2Proof.Machine
end

section
/-! PROOFS. The obligations on the IM-format instructions (45_im_format.md), settled. -/

namespace Sys2Proof.Proofs

open Sys2Proof.Machine Sys2Proof.Claims

/-- Settles O23: MOVZ writes the chunk's value, which is the spec's product. -/
theorem movzClearsOtherChunks : Obligations.MovzClearsOtherChunks := by
  obtain ⟨hdomain, hmovz⟩ := imOperation_movz
  refine ⟨hdomain, fun s rd imm16 shift hrd himm hshift => ?_⟩
  rw [wrap64_chunk himm]
  exact hmovz s rd imm16 shift hrd himm hshift

/-- Settles O24: MOVK writes the old value with one chunk replaced, whose bits are known. -/
theorem movkKeepsOtherChunks : Obligations.MovkKeepsOtherChunks := by
  obtain ⟨hdomain, hmovk⟩ := imOperation_movk
  refine ⟨hdomain, fun s rd imm16 shift hrd himm hshift => ?_⟩
  obtain ⟨⟨t, ht, hwrites⟩, hword⟩ := hmovk s rd imm16 shift hrd himm hshift
  exact ⟨⟨t, _, ht, hwrites, fun k hk => getLsbD_replaceChunk _ himm hk⟩, hword⟩

/-- Settles O25: each move extends by one chunk the part of the constant that is in place, and four chunks are all of it. -/
theorem fourMovesBuildAnyConstant : Obligations.FourMovesBuildAnyConstant := by
  intro s rd c hrd hz
  obtain ⟨s1, h1, hb1⟩ := exec_movz_building s c hrd hz
  obtain ⟨s2, h2, hb2⟩ := hb1.exec_movk hrd hz (by decide)
  obtain ⟨s3, h3, hb3⟩ := hb2.exec_movk hrd hz (by decide)
  obtain ⟨s4, h4, hb4⟩ := hb3.exec_movk hrd hz (by decide)
  have hfirst : chunkOf c 0 = c.toNat % 65536 := by simp [chunkOf]
  have hlast : chunkOf c 3 = c.toNat / 281474976710656 := Nat.mod_eq_of_lt (by omega)
  rw [hfirst] at h1
  rw [hlast] at h4
  exact ⟨s1, s2, s3, s4, h1, h2, h3, h4, hb4.read.trans (lowChunks_four c), hb4.pc, hb4.mem⟩

end Sys2Proof.Proofs
end

section
/-! PROOFS. The step of an instruction that moves `pc` and the run state alone, as NOP and BREAK do (46_nop_break.md). -/

namespace Sys2Proof.Machine

/-! ### The words (R69) -/

theorem decodeInstr_nop : decodeInstr 0x00000000#32 = some .nop :=
  (decodeInstr_eq_iff (by simp [opcodeRows, otherRows]) _).2 rfl

theorem decodeInstr_brk : decodeInstr 0xFEDEFFE7#32 = some .brk :=
  (decodeInstr_eq_iff (by simp [opcodeRows, otherRows]) _).2 rfl

/-! ### The meanings -/

theorem exec_nop_eq (s : State) : exec .nop s = .next { s with pc := s.pc + 4#64 } := rfl

theorem exec_brk_eq (s : State) : exec .brk s = .next { s with pc := s.pc + 4#64, run := .halted } := rfl

/-! ### The step -/

/-- The block of a commit reads neither `pc` nor the run state (R171, R172). -/
theorem State.commit_pc_run (s : State) (p : Word) (q : RunState) (r : Record) :
    State.commit { s with pc := p, run := q } r =
      { s with pc := p, run := q, cycle := s.cycle + 1, trace := s.trace ++ [s.tick.snapshot r] } := rfl

/-- When the fetched instruction moves `pc` and the run state alone, its step adds the count and one block, which shows the
registers and the memory it found (R85, R86, R171). -/
theorem step_pc_run {s : State} {i : Instr} {p : Word} {q : RunState} (hrun : s.run = .running) (hi : s.Fetches i)
    (he : exec i s = .next { s with pc := p, run := q }) (hq : q ≠ .faulted) :
    ∃ b, step s = .next { s with pc := p, run := q, cycle := s.cycle + 1, trace := s.trace ++ [b] } ∧
      b.cycle = s.cycle + 1 ∧ b.addr = s.pc.toNat ∧ (∀ k < 32, b.regs[k]? = some (s.readReg k)) ∧ b.rows = s.memDump := by
  obtain ⟨r, hf, ha, hs⟩ := hi
  have hstep := step_executes hrun hf ha hs he hq
  rw [State.commit_pc_run] at hstep
  obtain ⟨hcycle, haddr, -, hregs, hrows⟩ := s.blockShows_commit r
  exact ⟨_, hstep, hcycle, haddr.trans ha, hregs, hrows⟩

end Sys2Proof.Machine
end

section
/-! PROOFS. The obligations on NOP and BREAK (46_nop_break.md), settled. -/

namespace Sys2Proof.Proofs

open Sys2Proof.Machine

/-- Settles O26: NOP moves `pc` alone, and its step adds the count and the block. -/
theorem nopOnlyAdvances : Obligations.NopOnlyAdvances := by
  refine fun s => ⟨exec_nop_eq s, decodeInstr_nop, fun hrun hf => ?_⟩
  have hok : s.run ≠ .faulted := by simp [hrun]
  exact step_pc_run hrun hf (exec_nop_eq s) hok

/-- Settles O27: BREAK moves `pc` and the run state alone, its step adds the count and the block, and none leaves a halted
machine. -/
theorem breakAdvancesAndHalts : Obligations.BreakAdvancesAndHalts := by
  refine fun s => ⟨exec_brk_eq s, decodeInstr_brk, fun hrun hf => ?_⟩
  obtain ⟨b, hstep, hcycle, haddr, hregs, hrows⟩ := step_pc_run hrun hf (exec_brk_eq s) (by decide)
  exact ⟨_, b, hstep, rfl, hcycle, haddr, hregs, hrows, step_halted rfl⟩

end Sys2Proof.Proofs
end

section
/-! PROOFS. The assembly text of a record, the decimal numerals, the size of the memory dump and the lines of a block
(30_encoding.md R72; 47_trace_recorder.md R174 to R182, R186). -/

namespace Sys2Proof

/-! ### The assembly text (R72, R186) -/

@[simp] theorem regText_no_lf (i : Nat) : '\n' ∉ regText i := by simp [regText, dec_no_lf]

theorem textRRR_no_lf {op : Text} (h : '\n' ∉ op) (rd rn rm : Nat) : '\n' ∉ textRRR op rd rn rm := by
  simp [textRRR, h]

theorem textRRN_no_lf {op : Text} (h : '\n' ∉ op) (rd rn : Nat) (n : Int) : '\n' ∉ textRRN op rd rn n := by
  simp [textRRN, h, decInt_no_lf]

theorem textD_no_lf {op : Text} (h : '\n' ∉ op) (rt rn : Nat) (offset : Int) : '\n' ∉ textD op rt rn offset := by
  simp [textD, h, decInt_no_lf]

theorem textCB_no_lf {op : Text} (h : '\n' ∉ op) (rt : Nat) (offset : Int) : '\n' ∉ textCB op rt offset := by
  simp [textCB, h, decInt_no_lf]

theorem textIM_no_lf {op : Text} (h : '\n' ∉ op) (rd imm16 shift : Nat) : '\n' ∉ textIM op rd imm16 shift := by
  simp [textIM, h, dec_no_lf]

/-- No form of R72's assembly text holds a line feed, whatever the operands. -/
theorem Instr.text_no_lf (i : Instr) : '\n' ∉ i.text := by
  cases i with
  | and | add | orr | eor | sub => exact textRRR_no_lf (by decide) _ _ _
  | asr | lsr | lsl | addi | subi => exact textRRN_no_lf (by decide) _ _ _
  | ldur | stur => exact textD_no_lf (by decide) _ _ _
  | b offset => exact List.not_mem_append (by decide : '\n' ∉ "B #".toList) (decInt_no_lf offset)
  | cbz | cbnz => exact textCB_no_lf (by decide) _ _
  | movz | movk => exact textIM_no_lf (by decide) _ _ _
  | nop | brk => decide

theorem Shape.text_no_lf (sh : Shape) : '\n' ∉ sh.text := by
  cases sh with
  | instr i => exact i.text_no_lf
  | unsupported w => exact List.not_mem_nil

/-! ### Numerals (R176) -/

theorem numeralValue_dec (n : Nat) : Claims.numeralValue (dec n) = n := Nat.ofDigitChars_ten_toDigits

theorem dec_ne_nil (n : Nat) : dec n ≠ [] := Nat.toDigits_ne_nil

/-- No leading zero: the first digit of a numeral is that of its quotient by ten as long as there is one. -/
theorem eq_zero_of_dec_head (n : Nat) : (dec n).head? = some '0' → n = 0 := by
  refine dec_induction (P := fun n => (dec n).head? = some '0' → n = 0) (fun n hn h => ?small) (fun n hn ih h => ?big) n
  case small =>
    rw [dec_eq, if_pos hn] at h
    exact Nat.digitChar_eq_zero.1 (Option.some.inj h)
  case big =>
    rw [dec_eq, if_neg (by omega), List.head?_append_of_ne_nil _ (dec_ne_nil _)] at h
    have hquot : n / 10 = 0 := ih h
    omega

theorem decInt_natCast (n : Nat) : decInt n = dec n := rfl

theorem decInt_neg_natCast {n : Nat} (h : 0 < n) : decInt (-n) = '-' :: dec n := by
  obtain ⟨m, rfl⟩ := Nat.exists_eq_add_one.2 h
  rfl

theorem sdec_of_nonneg {v : Word} (h : 0 ≤ v.toInt) : sdec v = dec v.toNat := by
  have hv : v.toInt = v.toNat := by rw [BitVec.toInt_eq_toNat_cond] at h ⊢; split at h <;> omega
  rw [sdec, hv, decInt_natCast]

theorem sdec_of_neg {v : Word} (h : v.toInt < 0) : sdec v = '-' :: dec (2 ^ 64 - v.toNat) := by
  have hv : v.toInt = -((2 ^ 64 - v.toNat : Nat) : Int) := by
    rw [BitVec.toInt_eq_toNat_cond] at h ⊢; split at h <;> omega
  rw [sdec, hv, decInt_neg_natCast (Nat.sub_pos_of_lt v.isLt)]

namespace Machine

open Sys2Proof.Claims

/-! ### The memory dump (R174, R175) -/

@[simp] theorem State.memDump_length (s : State) : s.memDump.length = s.nrows := by simp [memDump]

theorem State.memDump_getElem? (s : State) {r : Nat} (h : r < s.nrows) : s.memDump[r]? = some (s.dumpRow r) := by
  simp [memDump, h]

theorem State.dumpRow_values (s : State) (r : Nat) {j : Nat} (h : j < 8) :
    (s.dumpRow r).values[j]? = some (s.dumpValue (s.dataBase + 32 * r + 4 * j)) := by
  simp [dumpRow, h]

theorem State.memDump_eq_nil {s : State} (h : s.nwords = 0) : s.memDump = [] := by simp [memDump, nrows, h]

/-- `mem_hi` is the key of an entry, so it is word-aligned (R20, R31). -/
theorem State.Inv.memHi_aligned {s : State} (h : s.Inv) {hi : Int} (hhi : s.memHi = some hi) : hi % 4 = 0 := by
  obtain ⟨v, hv⟩ := Memory.highest_mem (h.memHi.symm.trans hhi)
  obtain ⟨-, hkeys⟩ := h.memWf
  exact (hkeys _ hv).1

theorem State.dataBase_aligned {s : State} (h : s.cfg.entryPc % 4 = 0) : s.dataBase % 4 = 0 := by
  simp [dataBase, h, Nat.add_mod]

/-- Between aligned ends the dumped words are counted without a remainder (R174). -/
theorem State.four_mul_nwords {s : State} {hi : Int} (hhi : s.memHi = some hi) (hle : (s.dataBase : Int) ≤ hi)
    (ha : hi % 4 = 0) (hb : s.dataBase % 4 = 0) : 4 * (s.nwords : Int) = hi - s.dataBase + 4 := by
  simp only [nwords, hhi, if_pos hle]
  omega

/-- There is nothing to dump when `mem_hi` is none or below DATA_BASE (R174). -/
theorem State.nwords_eq_zero {s : State} (h : s.memHi = none ∨ ∃ hi, s.memHi = some hi ∧ hi < s.dataBase) :
    s.nwords = 0 := by
  rcases h with hnone | ⟨hi, hhi, hlt⟩
  · simp [nwords, hnone]
  · simp [nwords, hhi, not_le.2 hlt]

/-! ### Texts as lists of lines (R178) -/

/-- A text made of lines, each ended by a line feed. -/
def endLines (ls : List Text) : Text := ls.flatMap (· ++ ['\n'])

@[simp] theorem endLines_nil : endLines [] = [] := rfl

@[simp] theorem endLines_cons (l : Text) (ls : List Text) : endLines (l :: ls) = l ++ '\n' :: endLines ls := by
  simp [endLines]

@[simp] theorem endLines_append (ls ms : List Text) : endLines (ls ++ ms) = endLines ls ++ endLines ms :=
  List.flatMap_append

/-- Splitting at the line feeds gives the lines back, and what stands after the last line feed: nothing. -/
theorem splitOn_endLines {ls : List Text} (h : ∀ l ∈ ls, '\n' ∉ l) : (endLines ls).splitOn '\n' = ls ++ [[]] := by
  induction ls with
  | nil => simp
  | cons l ls ih =>
    obtain ⟨hl, hls⟩ := List.forall_mem_cons.1 h
    rw [endLines_cons, List.splitOn_append_cons_self_of_not_mem hl, ih hls, List.cons_append]

theorem count_endLines {ls : List Text} (h : ∀ l ∈ ls, '\n' ∉ l) : (endLines ls).count '\n' = ls.length := by
  induction ls with
  | nil => simp
  | cons l ls ih =>
    obtain ⟨hl, hls⟩ := List.forall_mem_cons.1 h
    simp [List.count_eq_zero_of_not_mem hl, ih hls]

/-! ### The lines of a block (R177 to R182) -/

/-- The header line of a block without its line feed (R177). -/
def headerLine (b : Snapshot) : Text :=
  ['c', 'y', 'c', 'l', 'e', ':'] ++ dec b.cycle ++ '\t' :: dec b.addr ++ '\t' :: b.text

/-- A memory row without its line feed (R181). -/
def memoryLine (r : MemRow) : Text := dec r.label ++ ':' :: tabbed r.values.toList

/-- The lines of a block in the order of R178's template. -/
def Snapshot.lines (b : Snapshot) : List Text :=
  [List.replicate 20 '=', headerLine b, [], registerLine b ['0', '0'] 0, registerLine b ['0', '8'] 1,
    registerLine b ['1', '6'] 2, registerLine b ['2', '4'] 3, []] ++ b.rows.map memoryLine ++ [[]]

theorem tabbed_eq_valuesText (vs : List Word) : tabbed vs = valuesText vs := List.flatMap_def

theorem tabbed_no_lf (vs : List Word) : '\n' ∉ tabbed vs := tabbed_eq_valuesText vs ▸ valuesText_no_lf vs

theorem headerLine_no_lf {b : Snapshot} (h : '\n' ∉ b.text) : '\n' ∉ headerLine b := by
  simp [headerLine, dec_no_lf, h]

theorem registerLine_no_lf (b : Snapshot) {label : Text} (h : '\n' ∉ label) (k : Nat) : '\n' ∉ registerLine b label k := by
  simp [registerLine, tabbed_no_lf, h]

theorem memoryLine_no_lf (r : MemRow) : '\n' ∉ memoryLine r := by simp [memoryLine, dec_no_lf, tabbed_no_lf]

/-- No line of a block holds a line feed, since its text holds none and the recorder adds none (R186). -/
theorem Snapshot.lines_no_lf {b : Snapshot} (h : '\n' ∉ b.text) : ∀ l ∈ b.lines, '\n' ∉ l := by
  have hregs : ∀ label : Text, '\n' ∉ label → ∀ k, '\n' ∉ registerLine b label k := fun _ => registerLine_no_lf b
  simp [lines, headerLine_no_lf h, hregs, memoryLine_no_lf, or_imp, forall_and]

/-- Row `k` of the register dump takes `x[8k] .. x[8k+7]` (R173). -/
theorem take_drop_regs (x : Vector Word 32) {k : Nat} (hk : k < 4) :
    (x.toList.drop (8 * k)).take 8 = (List.range 8).map fun j => (x[8 * k + j]?).getD 0 := by
  refine List.ext_getElem (by simp; omega) fun j hj _ => ?_
  have hj : 8 * k + j < 32 := by simp at hj; omega
  simp [hj]

theorem regRowText_eq (b : Snapshot) {k : Nat} (hk : k < 4) {label : Text} (hlabel : twoDigits (8 * k) = label) :
    regRowText b k = registerLine b label k ++ ['\n'] := by
  rw [regRowText, registerLine, take_drop_regs b.regs hk, hlabel, tabbed_eq_valuesText]
  simp

theorem memRowText_eq (r : MemRow) : memRowText r = memoryLine r ++ ['\n'] := by
  simp [memRowText, memoryLine, tabbed_eq_valuesText]

theorem headerText_eq (b : Snapshot) : headerText b = headerLine b ++ ['\n'] := by
  have hword : "cycle:".toList = ['c', 'y', 'c', 'l', 'e', ':'] := by decide
  unfold headerText headerLine
  simp only [hword, List.append_assoc, List.cons_append, List.nil_append]

theorem Snapshot.memRows_eq_endLines (b : Snapshot) :
    (b.rows.map memRowText).flatten = endLines (b.rows.map memoryLine) := by
  rw [endLines, List.flatMap_map, List.flatMap_def, funext memRowText_eq]

/-- The text of a block is its lines, each ended by a line feed (R178). -/
theorem Snapshot.blockText_eq_endLines (b : Snapshot) : b.blockText = endLines b.lines := by
  have hrow0 := regRowText_eq b (k := 0) (by decide) (rfl : _ = ['0', '0'])
  have hrow1 := regRowText_eq b (k := 1) (by decide) (rfl : _ = ['0', '8'])
  have hrow2 := regRowText_eq b (k := 2) (by decide) (rfl : _ = ['1', '6'])
  have hrow3 := regRowText_eq b (k := 3) (by decide) (rfl : _ = ['2', '4'])
  simp [blockText, separatorText, lines, headerText_eq, memRows_eq_endLines, hrow0, hrow1, hrow2, hrow3]

theorem Snapshot.lines_length (b : Snapshot) : b.lines.length = 9 + b.rows.length := by
  simp [lines]; omega

/-- The host reads one block more after it is appended to the trace (R183). -/
theorem State.traceText_of_append {s t : State} {b : Snapshot} (h : t.trace = s.trace ++ [b]) :
    t.traceText = s.traceText ++ b.blockText := by
  simp [traceText, h]

end Machine

end Sys2Proof
end

section
/-! PROOFS. The obligations on the TraceRecorder (47_trace_recorder.md), settled. -/

namespace Sys2Proof.Proofs

open Sys2Proof.Machine

/-- Settles O13: every form of the decoder's text is made of letters, punctuation and numerals, and an unsupported record's is
empty. -/
theorem decodedTextHasNoLineFeed : Obligations.DecodedTextHasNoLineFeed :=
  fun _ w => (decodeShape w).text_no_lf

/-- Settles O54: both ends of the dumped region are word-aligned, so its words are counted exactly, and a read above `mem_hi`
gives the placeholder zero. -/
theorem memoryDumpCoversDataRegion : Obligations.MemoryDumpCoversDataRegion := by
  intro s hinv hentry
  refine ⟨fun hi hhi hle => ?range, fun r hr => ?rows, fun h => State.memDump_eq_nil (State.nwords_eq_zero h)⟩
  case range =>
    have hwords := State.four_mul_nwords hhi hle (hinv.memHi_aligned hhi) (State.dataBase_aligned hentry)
    rw [State.memDump_length, State.nrows]
    omega
  case rows =>
    rw [State.memDump_length] at hr
    refine ⟨s.dumpRow r, s.memDump_getElem? hr, rfl, fun j hj => ?_⟩
    rw [s.dumpRow_values r hj, State.dumpValue_eq_read hinv.memHi]

/-- Settles O55: the digits of a number by the library's numerals, no leading zero by induction along them, and a signed value
by its sign. -/
theorem numeralsAreDecimal : Obligations.NumeralsAreDecimal := by
  refine ⟨fun n => ⟨numeralValue_dec n, dec_digits n, dec_ne_nil n, eq_zero_of_dec_head n, ?zero⟩,
    fun v => ⟨sdec_of_nonneg, sdec_of_neg⟩⟩
  case zero =>
    rintro rfl
    rfl

/-- Settles O56: the text is the template's lines, each ended by a line feed, and no line holds another. -/
theorem blockTextHasSpecLines : Obligations.BlockTextHasSpecLines := by
  intro b htext
  have hlines := Snapshot.lines_no_lf htext
  rw [b.blockText_eq_endLines, splitOn_endLines hlines, count_endLines hlines]
  refine ⟨?split, b.lines_length⟩
  case split => simp [Snapshot.lines, headerLine, memoryLine]

/-- Settles O57: only an executed step appends a block to the trace. -/
theorem traceTextGrowsByWholeBlocks : Obligations.TraceTextGrowsByWholeBlocks := by
  refine fun s t h => ⟨fun ht => ?executed, fun ht => ?raised⟩
  case executed =>
    obtain ⟨-, r, b, -, -, htrace, -⟩ := step_emits_block h ht
    exact ⟨b, by rw [htrace, List.getLast?_concat], State.traceText_of_append htrace⟩
  case raised =>
    obtain ⟨-, htrace⟩ := step_raised_emits_nothing h ht
    rw [State.traceText, htrace, State.traceText]

end Sys2Proof.Proofs
end

section
/-! PROOFS. The state after reset and after the load (70_reset_and_hazards.md R220 to R222). -/

namespace Sys2Proof.Machine

/-! ### Reset (R24, R220) -/

theorem State.resetWith_x_getElem? (cfg : Config) {i : Nat} (h : i < 32) : (State.resetWith cfg).x[i]? = some 0 := by
  simp [h]

theorem State.resetWith_readReg (cfg : Config) {i : Nat} (h : i < 32) : (State.resetWith cfg).readReg i = 0 := by
  simp [readReg, h]

/-- Wrapping to 64 bits keeps the remainder by 4, since 4 divides 2^64. -/
theorem wrap64_natCast_mod_four (n : Nat) : (wrap64 n).toNat % 4 = n % 4 := by
  rw [wrap64, BitVec.toNat_ofInt]
  omega

theorem State.resetWith_inv {cfg : Config} (h : cfg.entryPc % 4 = 0) : (State.resetWith cfg).Inv where
  memWf := Memory.wf_nil
  memHi := rfl
  pcAligned := (wrap64_natCast_mod_four cfg.entryPc).trans h
  zeroReg _ := by simp
  faultIff := by simp
  labels := rfl

/-! ### The load (R221, R222) -/

/-- The initial `mem_hi` of a non-empty image is an address of the image that no other exceeds (R20, R221). -/
theorem Memory.highest_of_ne_nil {m : Memory} (h : m ≠ []) :
    ∃ hi v, highest m = some hi ∧ (hi, v) ∈ m ∧ ∀ c ∈ m, c.1 ≤ hi := by
  obtain ⟨d, hd⟩ := List.exists_mem_of_ne_nil m h
  obtain ⟨hi, hhi, -⟩ := le_highest hd
  obtain ⟨v, hv⟩ := highest_mem hhi
  refine ⟨hi, v, hhi, hv, fun c hc => ?_⟩
  obtain ⟨hi', hhi', hle⟩ := le_highest hc
  obtain rfl : hi = hi' := Option.some.inj (hhi.symm.trans hhi')
  exact hle

/-- The load adds to the invariant of reset a memory in canonical form, with its largest address as `mem_hi`. -/
theorem State.load_inv {cfg : Config} {image : Memory} (hpc : cfg.entryPc % 4 = 0) (himage : Memory.wf image)
    (prog : Store) : (State.load cfg prog image).Inv :=
  { State.resetWith_inv hpc with memWf := himage, memHi := rfl }

end Sys2Proof.Machine
end

section
/-! PROOFS. The obligations on reset and the load (70_reset_and_hazards.md), settled. -/

namespace Sys2Proof.Proofs

open Sys2Proof.Machine

/-- Settles O1: the registers by one lemma for the stored and one for the read values, every other element by its value. -/
theorem resetLeavesSpecValues : Obligations.ResetLeavesSpecValues :=
  ⟨fun cfg => ⟨fun _ hi => ⟨State.resetWith_x_getElem? cfg hi, State.resetWith_readReg cfg hi⟩,
    rfl, rfl, rfl, rfl, rfl, rfl, rfl, rfl⟩, rfl⟩

/-- Settles O2: `mem_hi` is the image's largest address, and the rest is how the load is written. -/
theorem loadFillsStoreAndMemory : Obligations.LoadFillsStoreAndMemory := by
  intro cfg prog image
  refine ⟨rfl, rfl, rfl, ?empty, fun h => Memory.highest_of_ne_nil h, rfl⟩
  case empty =>
    rintro rfl
    rfl

/-- Settles O3; the default ENTRY_PC is the multiple 96 of 4. -/
theorem invariantHoldsAtReset : Obligations.InvariantHoldsAtReset :=
  ⟨fun _ h => State.resetWith_inv h, State.resetWith_inv rfl⟩

/-- Settles O4, from the invariant at reset. -/
theorem invariantHoldsAfterLoad : Obligations.InvariantHoldsAfterLoad :=
  fun _ prog _ hstore himage => State.load_inv hstore.entryAligned himage.canonical prog

end Sys2Proof.Proofs
end

section
/-! PROOFS. The fatal conditions from both sides: what a step answers when a check fails, and which check failed when a step
faulted (60_exceptions.md R191 to R197). -/

namespace Sys2Proof.Machine

open Sys2Proof.Claims

variable {s t : State}

/-! ### The exit status (R204, log 14) -/

theorem State.exitStatus_halted (h : s.run = .halted) : s.exitStatus = some 0 := by simp [exitStatus, h]

theorem State.exitStatus_faulted (h : s.run = .faulted) : s.exitStatus = some 1 := by simp [exitStatus, h]

theorem State.exitStatus_running (h : s.run = .running) : s.exitStatus = none := by simp [exitStatus, h]

/-! ### From a failing check to the condition raised (R191 to R194) -/

theorem step_fetchFailed (hrun : s.run = .running) (hf : s.ifetch s.pc.toNat = none) :
    step s = .next (Raised s .instructionFetchOutOfRange (.address s.pc.toNat)) :=
  (StepCase.fetchFailed hf).step hrun

theorem step_unsupported {r : Record} {w : InstrWord} (hrun : s.run = .running) (hf : s.ifetch s.pc.toNat = some r)
    (hs : r.shape = .unsupported w) : step s = .next (Raised s .unsupportedInstruction (.unsupported r.addr w)) :=
  (StepCase.unsupported hf hs).step hrun

/-- The address field is checked by the engine and the operand fields by the meaning, with the same record either way
(log 8). -/
theorem step_malformed {r : Record} {i : Instr} (hrun : s.run = .running) (hf : s.ifetch s.pc.toNat = some r)
    (hs : r.shape = .instr i) (hbad : r.addr ≠ s.pc.toNat ∨ ¬ i.WellFormed) :
    step s = .next (Raised s .malformedOperand (.address r.addr)) := by
  by_cases ha : r.addr = s.pc.toNat
  · have hw : ¬ i.WellFormed := hbad.resolve_left (not_not_intro ha)
    rw [ha]
    exact (StepCase.raised hf hs ha (exec_malformed hw) rfl).step hrun
  · exact (StepCase.wrongAddr hf hs ha).step hrun

theorem exec_misaligned {i : Instr} {rt rn : Nat} {offset : Int} (hi : i = .ldur rt rn offset ∨ i = .stur rt rn offset)
    (hw : i.WellFormed) (ha : ¬ aligned (s.effectiveAddress rn offset) = true) :
    exec i s = .next (s.raise .misalignedDataAddress (.effectiveAddress (s.effectiveAddress rn offset))) := by
  rcases hi with rfl | rfl <;> exact (State.checked_ok hw).trans (State.alignedAccess_bad ha)

theorem step_misaligned {i : Instr} {rt rn : Nat} {offset : Int} (hi : i = .ldur rt rn offset ∨ i = .stur rt rn offset)
    (hrun : s.run = .running) (hfetch : s.Fetches i) (hw : i.WellFormed)
    (ha : ¬ aligned (s.effectiveAddress rn offset) = true) :
    step s = .next (Raised s .misalignedDataAddress (.effectiveAddress (s.effectiveAddress rn offset))) := by
  obtain ⟨r, hf, haddr, hs⟩ := hfetch
  exact (StepCase.raised hf hs haddr (exec_misaligned hi hw ha) rfl).step hrun

/-- A step exists only while running, so a condition shown for the running machine is the one the step reports. -/
theorem reports_cause {c : Cause} {info : FaultInfo} (h : step s = .next t)
    (hraises : s.run = .running → step s = .next (Raised s c info)) : ∃ f, t.fault = some f ∧ f.cause = c := by
  have hnext := (hraises (step_cases h).1).symm.trans h
  cases hnext
  exact ⟨_, rfl, rfl⟩

/-! ### From a faulted step to the check that failed (R195) -/

/-- The check that stands behind a condition, on the state the step began with (R191 to R194). -/
def State.CheckFails (s : State) : Cause → Prop
  | .instructionFetchOutOfRange => s.ifetch s.pc.toNat = none
  | .unsupportedInstruction => ∃ r w, s.ifetch s.pc.toNat = some r ∧ r.shape = .unsupported w
  | .malformedOperand =>
    ∃ r i, s.ifetch s.pc.toNat = some r ∧ r.shape = .instr i ∧ (r.addr ≠ s.pc.toNat ∨ ¬ i.WellFormed)
  | .misalignedDataAddress =>
    ∃ i rt rn offset, (i = .ldur rt rn offset ∨ i = .stur rt rn offset) ∧ s.Fetches i ∧ i.WellFormed ∧
      ¬ aligned (s.effectiveAddress rn offset) = true

/-- The D format has two instructions (R53). -/
theorem ldur_or_stur_of_format {i : Instr} (h : i.format = .d) :
    ∃ rt rn offset, i = .ldur rt rn offset ∨ i = .stur rt rn offset := by
  cases i with
  | ldur => exact ⟨_, _, _, .inl rfl⟩
  | stur => exact ⟨_, _, _, .inr rfl⟩
  | _ => cases h

/-- A well-formed access at an aligned address completes and leaves the run state (R131, R132). -/
theorem exec_aligned {i : Instr} {rt rn : Nat} {offset : Int} (hi : i = .ldur rt rn offset ∨ i = .stur rt rn offset)
    (hw : i.WellFormed) (ha : aligned (s.effectiveAddress rn offset) = true) :
    ∃ u, exec i s = .next u ∧ u.run = s.run := by
  rcases hi with rfl | rfl <;> exact ⟨_, (State.checked_ok hw).trans (State.alignedAccess_ok ha), by simp⟩

/-- The inversion lemma of a step that faulted: it raised one condition and did nothing else, and that condition's check
failed (R195). -/
theorem step_raised (h : step s = .next t) (ht : t.run = .faulted) :
    ∃ c info, t = Raised s c info ∧ s.CheckFails c := by
  obtain ⟨hrun, hcase⟩ := step_cases h
  cases hcase with
  | fetchFailed hf => exact ⟨_, _, rfl, hf⟩
  | unsupported hf hs => exact ⟨_, _, rfl, _, _, hf, hs⟩
  | wrongAddr hf hs ha => exact ⟨_, _, rfl, _, _, hf, hs, .inl ha⟩
  | executed _ _ _ _ hok => exact absurd ht hok
  | raised hf hs ha he =>
    cases exec_effect he with
    | malformed hw => exact ⟨_, _, rfl, _, _, hf, hs, .inr hw⟩
    | misaligned hw hd =>
      obtain ⟨rt, rn, offset, hi⟩ := ldur_or_stur_of_format hd
      refine ⟨_, _, rfl, _, rt, rn, offset, hi, ⟨_, hf, ha, hs⟩, hw, fun haligned => ?_⟩
      obtain ⟨u, hu, hurun⟩ := exec_aligned hi hw haligned
      cases he.symm.trans hu
      simp [hrun] at hurun
    | register | store | branch | fallThrough | stop => simp [hrun] at ht

/-- From a state without a fault record, a step that leaves one reports a check that failed (R19, R195). -/
theorem checkFails_of_fault {f : FaultRecord} {c : Cause} (hnone : s.fault = none) (h : step s = .next t)
    (hf : t.fault = some f) (hcause : f.cause = c) : s.CheckFails c := by
  have ht : t.run = .faulted := by
    by_contra hok
    rw [step_keeps_fault h hok, hnone] at hf
    cases hf
  obtain ⟨c', info, rfl, hcheck⟩ := step_raised h ht
  obtain rfl := Option.some.inj hf
  obtain rfl : c' = c := hcause
  exact hcheck

end Sys2Proof.Machine
end

section
/-! PROOFS. The obligations on the fatal conditions (60_exceptions.md), settled. -/

namespace Sys2Proof.Proofs

open Sys2Proof.Machine Sys2Proof.Claims

/-- Settles O49: a failed check of the record, at the step and in `exec` alone. -/
theorem malformedRecordFaults : Obligations.MalformedRecordFaults :=
  ⟨fun _ _ _ hrun hf hs hbad => step_malformed hrun hf hs hbad, fun _ _ hw => exec_malformed hw⟩

/-- Settles O50: the effective address is misaligned with its base, and only the D format raises the condition. -/
theorem misalignedAccessFaults : Obligations.MisalignedAccessFaults := by
  refine ⟨fun s i rt rn offset hi hrun hfetch hw hbase => ?raises, fun s t f hnone hstep hf hcause => ?only⟩
  case raises => exact step_misaligned hi hrun hfetch hw (mt (s.aligned_effectiveAddress rn offset).1 hbase)
  case only =>
    obtain ⟨_, rt, rn, offset, rfl | rfl, hfetch, -⟩ := checkFails_of_fault hnone hstep hf hcause
    · exact ⟨rt, rn, offset, .inl hfetch⟩
    · exact ⟨rt, rn, offset, .inr hfetch⟩

/-- Settles O51, by the inversion of a faulted step. -/
theorem fatalConditionsArePrecise : Obligations.FatalConditionsArePrecise := by
  intro s t hstep ht
  obtain ⟨c, info, heq, -⟩ := step_raised hstep ht
  exact ⟨⟨c, info, heq⟩, step_faulted ht⟩

/-- Settles O52: each failing check decides the whole step, whatever a later check would find. -/
theorem firstFailingCheckIsReported : Obligations.FirstFailingCheckIsReported := by
  refine ⟨fun s t hf hstep => ?fetch, fun s t r w hf hs hstep => ?unsupported,
    fun s t r i hf hs hbad hstep => ?malformed, fun s t i rt rn offset hi hfetch hw ha hstep => ?misaligned⟩
  case fetch => exact reports_cause hstep fun hrun => step_fetchFailed hrun hf
  case unsupported => exact reports_cause hstep fun hrun => step_unsupported hrun hf hs
  case malformed => exact reports_cause hstep fun hrun => step_malformed hrun hf hs hbad
  case misaligned => exact reports_cause hstep fun hrun => step_misaligned hi hrun hfetch hw (by simp [ha])

/-- Settles O47. -/
theorem fetchOutsideStoreFaults : Obligations.FetchOutsideStoreFaults :=
  fun _ hrun hf => ⟨step_fetchFailed hrun hf, step_faulted rfl, State.exitStatus_faulted rfl⟩

/-- Settles O48: the condition is raised by the step of such a record and by nothing else. -/
theorem unsupportedRecordFaults : Obligations.UnsupportedRecordFaults :=
  ⟨fun _ _ _ hrun hf hs => step_unsupported hrun hf hs, State.load_run,
    fun _ _ _ hnone hstep hf hcause => checkFails_of_fault hnone hstep hf hcause⟩

/-- Settles O53. -/
theorem codesAndExitStatus : Obligations.CodesAndExitStatus :=
  ⟨rfl, rfl, rfl, rfl, fun _ => ⟨State.exitStatus_halted, State.exitStatus_faulted, State.exitStatus_running⟩⟩

end Sys2Proof.Proofs
end
